-- ==== Sys2Proof/Word.lean ====
section
/-! DEFINITION. The word types of chip8_cpu_core (spec/10_state.md, spec/00_scope.md R5, R9): an 8-bit register or
memory byte, a 16-bit index register, program counter or stack entry, a 16-bit opcode, and the index of a V register. -/

namespace Sys2Proof

/-- V_WIDTH, TIMER_WIDTH and one memory byte: 8 bits (R5). -/
abbrev Byte := BitVec 8

/-- I_WIDTH, PC_WIDTH, STACK_ENTRY_WIDTH: 16 bits (R5). -/
abbrev Word := BitVec 16

/-- An instruction is one 16-bit word (R80). -/
abbrev Opcode := BitVec 16

/-- The index of a general register: every value 0 to 15 is valid, so no register operand can be illegal (R83). -/
abbrev Reg := Fin 16

/-- `V[15]`, the flag register (R21). -/
abbrev vf : Reg := 15

end Sys2Proof
end

