-- ==== Sys2Proof/Machine/Params.lean ====
section
/-! DEFINITION. The parameters the source leaves open, each with the value the spec takes (spec/00_scope.md R6): named
constants that the meanings consult. STACK_CAPACITY is `Config.stackDepth` (fixed 16), RAND is `Config.freeByte`, and
AWAIT_KEY_PICK is the operation `awaitKey` of Machine/Ops.lean. -/

namespace Sys2Proof.Machine.Params

/-- FONT_BASE: address of the glyph for digit 0 (R6, D13). PRESUMED, notes/assumptions/6.md. -/
def fontBase : Nat := 0x000

/-- FONT_STRIDE: bytes per glyph (R6, D13). PRESUMED, notes/assumptions/6.md. -/
def fontStride : Nat := 5

/-- FONT: the 80-byte glyph table of 20_memory.md R58 (D13, GK4). PRESUMED, notes/assumptions/6.md. -/
def font : List Byte :=
  [0xF0, 0x90, 0x90, 0x90, 0xF0] ++ -- 0
  [0x20, 0x60, 0x20, 0x20, 0x70] ++ -- 1
  [0xF0, 0x10, 0xF0, 0x80, 0xF0] ++ -- 2
  [0xF0, 0x10, 0xF0, 0x10, 0xF0] ++ -- 3
  [0x90, 0x90, 0xF0, 0x10, 0x10] ++ -- 4
  [0xF0, 0x80, 0xF0, 0x10, 0xF0] ++ -- 5
  [0xF0, 0x80, 0xF0, 0x90, 0xF0] ++ -- 6
  [0xF0, 0x10, 0x20, 0x40, 0x40] ++ -- 7
  [0xF0, 0x90, 0xF0, 0x90, 0xF0] ++ -- 8
  [0xF0, 0x90, 0xF0, 0x10, 0xF0] ++ -- 9
  [0xF0, 0x90, 0xF0, 0x90, 0x90] ++ -- A
  [0xE0, 0x90, 0xE0, 0x90, 0xE0] ++ -- B
  [0xF0, 0x80, 0x80, 0x80, 0xF0] ++ -- C
  [0xE0, 0x90, 0x90, 0x90, 0xE0] ++ -- D
  [0xF0, 0x80, 0xF0, 0x80, 0xF0] ++ -- E
  [0xF0, 0x80, 0xF0, 0x80, 0x80]    -- F

/-- SHIFT_USES_VY: whether 8xy6 and 8xyE shift V[y] instead of V[x] (R6, D6). DESIGN CHOICE, notes/assumptions/11.md. -/
def shiftUsesVy : Bool := false

/-- BORROW_EQ_FLAG: VF after 8xy5 and 8xy7 with equal operands (R6, D8). DESIGN CHOICE, notes/assumptions/13.md. -/
def borrowEqFlag : Byte := 0

/-- VF_WRITTEN_LAST: whether the flag overwrites the result when x = F (R6, D7). DESIGN CHOICE, notes/assumptions/12.md. -/
def vfWrittenLast : Bool := true

/-- LOADSTORE_INCREMENTS_I: whether Fx55 and Fx65 advance I by x + 1 (R6, D11). DESIGN CHOICE, notes/assumptions/16.md. -/
def loadStoreIncrementsI : Bool := false

/-- FETCH_REQUIRES_EVEN_PC: whether a fetch at an odd PC faults (R6, D18). DESIGN CHOICE, notes/assumptions/22.md. -/
def fetchRequiresEvenPc : Bool := true

/-- MEM_INIT: the content of memory outside the font after reset (R6, D21). DESIGN CHOICE, notes/assumptions/5.md. -/
def memInit : Byte := 0x00

/-- What an instruction that wants a value 0 to 15 does with a larger one: fault, or use its low four bits (D14, D15). -/
inductive OutOfRangePolicy where
  | fault
  | mask
  deriving DecidableEq, Repr

/-- KEY_INDEX_OOR: Ex9E and ExA1 with V[x] > 15 (R6, D15). DESIGN CHOICE, notes/assumptions/19.md. -/
def keyIndexOor : OutOfRangePolicy := .fault

/-- FONT_DIGIT_OOR: Fx29 with V[x] > 15 (R6, D14). DESIGN CHOICE, notes/assumptions/18.md. -/
def fontDigitOor : OutOfRangePolicy := .fault

end Sys2Proof.Machine.Params
end

