-- ==== Sys2Proof/Config.lean ====
section
/-! DEFINITION. The parameters the source fixes (spec/00_scope.md R5) and the one free value of the machine, the
random byte (spec/41_load_alu.md R143, decision D23). The parameters the source leaves open (R6) are in
Machine/Params.lean. -/

namespace Sys2Proof.Config

/-- MEM_SIZE: bytes of memory, addresses 0x000 to 0xFFF (R5). -/
def memSize : Nat := 4096

/-- ROM_BASE: address of the first ROM byte and reset value of PC (R5). -/
def romBase : Nat := 0x200

/-- ROM_MAX: largest ROM image in bytes, 4096 - 0x200 (R5). -/
def romMax : Nat := 3584

/-- DISPLAY_W: framebuffer columns (R5). -/
abbrev displayW : Nat := 64

/-- DISPLAY_H: framebuffer rows (R5). -/
abbrev displayH : Nat := 32

/-- NUM_V: general registers (R5). -/
abbrev numV : Nat := 16

/-- NUM_KEYS: keys (R5). -/
abbrev numKeys : Nat := 16

/-- STACK_DEPTH: entries of the return stack (R5, and STACK_CAPACITY of R6, "fixed 16"). -/
abbrev stackDepth : Nat := 16

/-- RAND (R6, R143): the byte that the n-th execution of Cxkk gets as its `rand` input. A free value: it has no body, so
nothing can be proved of any of its values. DESIGN CHOICE (notes/assumptions/2.md); safe. -/
opaque freeByte : Nat → Byte

end Sys2Proof.Config
end

