-- ==== Sys2Proof/Machine/State.lean ====
section
/-! DEFINITION. The architectural state of chip8_cpu_core (spec/10_state.md), the fault latch's contents
(spec/60_exceptions.md R223), the two types of reasons of the host's interface, and the state after `Reset`
(spec/10_state.md R34, spec/70_reset_and_hazards.md R260). -/

namespace Sys2Proof.Machine

/-- The fault kinds of the hardware (R223). A fault of the hardware is an event the machine takes (it sets the latch), so
these are values of the state, not reasons for `step` to stop. -/
inductive FaultKind where
  /-- the fetch at an odd PC or at a PC above 0xFFE; Dxyn, Fx33, Fx55, Fx65 reaching past 0xFFF (R224) -/
  | outOfBounds
  /-- 2nnn with sixteen entries occupied (R225) -/
  | stackOverflow
  /-- 00EE with an empty stack (R226) -/
  | stackUnderflow
  /-- the decode of a word that matches no row (R227) -/
  | unimplementedOpcode
  /-- `LoadRom` of an image longer than 3584 bytes, never a step (R228) -/
  | romTooLarge
  /-- Ex9E, ExA1, Fx29 with V[x] above 15 (R229) -/
  | operandOutOfRange
  deriving DecidableEq, Repr

/-- `(kind, info)` of a fault; `info` is a natural number (R223). -/
structure FaultRecord where
  kind : FaultKind
  info : Nat
  deriving DecidableEq, Repr

/-- The framebuffer: 32 rows of 64 one-bit cells, `fb[row][col]`, row 0 at the top and column 0 at the left (R27). -/
abbrev Framebuffer := Vector (Vector Bool Config.displayW) Config.displayH

/-- Memory as the cells that differ from their reset content; `Memory.wf` (Machine/Ops.lean) is its canonical form (R29,
notes/assumptions/36.md). -/
abbrev Memory := List Host.Cell

/-- Every piece of state of `10_state.md`, and the model's own `draws`. -/
structure State where
  /-- `V[0]` to `V[15]` (R20) -/
  v : Vector Byte Config.numV
  /-- the index register `I` (R22) -/
  i : Word
  /-- the program counter `PC` (R23) -/
  pc : Word
  /-- `stack[0]` to `stack[15]` (R24) -/
  stack : Vector Word Config.stackDepth
  /-- `SP`, the number of occupied entries, 0 to 16 (R24) -/
  sp : Fin (Config.stackDepth + 1)
  /-- the delay timer `DT` (R26) -/
  dt : Byte
  /-- the sound timer `ST` (R26) -/
  st : Byte
  /-- the framebuffer (R27) -/
  fb : Framebuffer
  /-- `key[0]` to `key[15]`, true when pressed (R28) -/
  key : Vector Bool Config.numKeys
  /-- the 4096 bytes of memory (R29) -/
  mem : Memory
  /-- the fault latch (R30) -/
  fault : Option FaultRecord
  /-- the model's own: how many `rand` bytes have been used (R143, notes/assumptions/2.md) -/
  draws : Nat
  deriving DecidableEq, Repr

/-- The reasons for which a step could stop without a next state. There is none: every fault of the hardware has a
described entry, the latch (R222, R231), and "in every state with the fault latch clear a `Step` is defined"
(93_implementation_defined.md), so a faulting step is a next state (notes/assumptions/1.md). Safe: nothing raises it. -/
inductive Fault where
  deriving DecidableEq, Repr

/-- The reasons for which `exec` could refuse an instruction. -/
inductive Refusal where
  /-- raised only by an arm of `exec` whose instruction has no meaning yet; no arm is left that raises it. Safe. -/
  | notModelled (mnemonic : String)
  deriving DecidableEq, Repr

/-- The state after `Reset` (R34, R260). PC and the framebuffer are the source's values; V, I, SP, DT, ST, the keys and the
latch are the spec's own decision D21 (DESIGN CHOICE, notes/assumptions/3.md, unsafe); the stack entries, unspecified by
R34, are 0 (DESIGN CHOICE, notes/assumptions/4.md, unsafe); memory lists nothing, so every byte reads as its reset
content (R262); `draws` is the model's own (DESIGN CHOICE, notes/assumptions/7.md, safe). -/
def State.reset : State where
  v := Vector.replicate Config.numV 0x00
  i := 0x0000
  pc := 0x0200
  stack := Vector.replicate Config.stackDepth 0x0000
  sp := 0
  dt := 0x00
  st := 0x00
  fb := Vector.replicate Config.displayH (Vector.replicate Config.displayW false)
  key := Vector.replicate Config.numKeys false
  mem := []
  fault := none
  draws := 0

end Sys2Proof.Machine
end

