-- ==== Sys2Proof/Machine/Ops.lean ====
section
/-! DEFINITION. The named operations over memory, registers, stack, keypad and timers, taking a fault, and the ways a step
can end (spec/10_state.md, spec/20_memory.md, spec/60_exceptions.md R222, R231). -/

namespace Sys2Proof.Machine

/-- What an instruction answers. -/
abbrev Result := Host.Outcome State Fault Refusal

/-! ## Memory -/

/-- The content of an address after `Reset`: the font table at FONT_BASE, MEM_INIT elsewhere (R262). It is also what an
address that memory does not list reads as. -/
def resetByte (a : Nat) : Byte :=
  if Params.fontBase ≤ a ∧ a < Params.fontBase + Params.font.length then
    Params.font.getD (a - Params.fontBase) Params.memInit
  else Params.memInit

/-- The canonical form of memory: addresses below 4096, strictly rising, and no entry equal to the address's reset byte, so
that equal memories are equal lists. -/
def Memory.wf : Memory → Bool
  | [] => true
  | (a, b) :: rest =>
    decide (a < Config.memSize) && (b != resetByte a) && rest.all (fun c => decide (a < c.1)) && Memory.wf rest

/-- `mem[a]` (R29, R50). -/
def Memory.read : Memory → Nat → Byte
  | [], a => resetByte a
  | (k, v) :: rest, a => if k = a then v else Memory.read rest a

/-- `mem[a] <- b`, keeping the canonical form: writing the reset byte of an address removes its entry. -/
def Memory.write : Memory → Nat → Byte → Memory
  | [], a, b => if b = resetByte a then [] else [(a, b)]
  | (k, v) :: rest, a, b =>
    if k < a then (k, v) :: Memory.write rest a b
    else if k = a then (if b = resetByte a then rest else (a, b) :: rest)
    else if b = resetByte a then (k, v) :: rest
    else (a, b) :: (k, v) :: rest

/-- The bytes `mem[a]`, `mem[a + 1]`, ... of a run of `n` addresses, in ascending order (R56). -/
def Memory.readRun (m : Memory) (a : Nat) : Nat → List Byte
  | 0 => []
  | n + 1 => m.read a :: m.readRun (a + 1) n

/-- Store bytes at `a`, `a + 1`, ... in ascending order (R56). -/
def Memory.writeRun (m : Memory) (a : Nat) : List Byte → Memory
  | [] => m
  | b :: rest => (m.write a b).writeRun (a + 1) rest

/-- The record of `raise OutOfBounds(a)` (R223). -/
def outOfBoundsFault (a : Nat) : FaultRecord := ⟨.outOfBounds, a⟩

/-- `MemRead(addr, 1)`: the byte, or `OutOfBounds(addr)` above 0xFFF (R51). -/
def memRead (m : Memory) (addr : Nat) : Except FaultRecord Byte :=
  if addr > 0xFFF then .error (outOfBoundsFault addr) else .ok (m.read addr)

/-- `MemWrite(addr, 1, v)`: memory with the byte stored, or `OutOfBounds(addr)` above 0xFFF (R52). -/
def memWrite (m : Memory) (addr : Nat) (v : Byte) : Except FaultRecord Memory :=
  if addr > 0xFFF then .error (outOfBoundsFault addr) else .ok (m.write addr v)

/-! ## General registers (R20) -/

/-- `V[x]`. -/
def State.getV (s : State) (x : Reg) : Byte := s.v[x]

/-- `V[x] <- b`. -/
def State.setV (s : State) (x : Reg) (b : Byte) : State := { s with v := s.v.set x b }

/-- The registers `V[0]` to `V[x]` as bytes, in ascending order (R165). -/
def State.regsUpTo (s : State) (x : Reg) : List Byte := s.v.toList.take (x.val + 1)

/-- `V[k] <- byte k of the list`, for k from 0 to x; registers above x are untouched (R166). -/
def State.setRegsUpTo (s : State) (x : Reg) (bytes : List Byte) : State :=
  { s with v := Vector.ofFn fun k : Fin 16 => if k ≤ x then bytes.getD k.val (s.getV k) else s.getV k }

/-! ## The ways a step ends (R220, R23) -/

/-- The default end of an instruction: `pc <- pc + 2`. -/
def State.advance (s : State) : State := { s with pc := s.pc + 2 }

/-- The end of a skip: `pc <- pc + 4` when the condition holds, else `pc <- pc + 2` (R110). -/
def State.skipIf (s : State) (c : Bool) : State := { s with pc := if c then s.pc + 4 else s.pc + 2 }

/-- The end of a jump: `pc <- target`; the target is not checked (R110). -/
def State.jumpTo (s : State) (target : Word) : State := { s with pc := target }

/-- `raise F(info)`: taking a fault sets the latch and changes nothing else; PC stays at the faulting instruction, nothing is
saved and nothing is vectored to (R220, R222, R231). There is no return from a fault but `Reset` (R232). -/
def State.raise (s : State) (f : FaultRecord) : State := { s with fault := some f }

/-- A `Step` of a halted core: it fetches nothing and changes nothing (R231). -/
def State.halted (s : State) : State := s

/-- A blocked step changes nothing; in particular PC stays (R205). -/
def State.blocked (s : State) : State := s

/-! ## The return stack (R24, R25) -/

/-- Push an entry: none when sixteen entries are occupied. -/
def State.push (s : State) (w : Word) : Option State :=
  if h : s.sp.val < Config.stackDepth then
    some { s with stack := s.stack.set s.sp.val w h, sp := ⟨s.sp.val + 1, Nat.succ_lt_succ h⟩ }
  else none

/-- Pop the most recent entry: the entry and the state with `SP` one less; none when the stack is empty. The entry stays in
its place as a stale value (R278). -/
def State.pop (s : State) : Option (Word × State) :=
  match s.sp with
  | ⟨0, _⟩ => none
  | ⟨n + 1, h⟩ => some (s.stack[n]'(Nat.lt_of_succ_lt_succ h), { s with sp := ⟨n, Nat.lt_of_succ_lt h⟩ })

/-! ## Keypad (R28, R200 to R205) -/

/-- `is_pressed(k)` (R202). -/
def State.isPressed (s : State) (k : Fin 16) : Bool := s.key[k]

/-- `key[k] <- pressed`. -/
def State.setKeyState (s : State) (k : Fin 16) (pressed : Bool) : State := { s with key := s.key.set k pressed }

/-- `await_key()`: the lowest pressed index, none when no key is pressed (R205, AWAIT_KEY_PICK, D16). DESIGN CHOICE,
notes/assumptions/20.md. -/
def State.awaitKey (s : State) : Option (Fin 16) := (List.finRange 16).find? fun k => s.isPressed k

/-! ## Timers (R26) -/

/-- One timer in one tick: down by 1 while nonzero (R235). -/
def tickTimer (t : Byte) : Byte := if t = 0 then 0 else t - 1

/-! ## The random byte (R143) -/

/-- The `rand` input of this step: a free value (notes/assumptions/2.md). -/
def State.rand (s : State) : Byte := Config.freeByte s.draws

/-- The `rand` input is used up. -/
def State.useRand (s : State) : State := { s with draws := s.draws + 1 }

end Sys2Proof.Machine
end

