-- ==== Sys2Proof/Machine/Operands.lean ====
section
/-! DEFINITION. The operand forms: 12-bit addresses (spec/30_encoding.md R83), the base-plus-offset address run at I
(spec/20_memory.md R54, R55, spec/42_index_memory.md R163), the operands that must be 0 to 15 (R162, R202), the shift
operand (R140, R142) and the decimal digits of a byte (R164). -/

namespace Sys2Proof.Machine

/-- `zext_16(nnn)` (R83). -/
def addrOf (nnn : BitVec 12) : Word := nnn.setWidth 16

/-- The target of the indexed jump: `zext_16(nnn) + V[0]`, at most 0x10FE, not reduced modulo 4096 (R113, D31). -/
def indexedTarget (nnn : BitVec 12) (v0 : Byte) : Word := addrOf nnn + v0.setWidth 16

/-- The sum `I + V[x]` modulo 65536 (R161, D9). -/
def indexSum (i : Word) (b : Byte) : Word := i + b.setWidth 16

/-- The check of an instruction that accesses the `count` bytes at `I`, `I + 1`, ...: none when every address is in range
(also when there is none), else the fault `OutOfBounds(max(I, 0x1000))`. The sum is formed in unbounded integers
(R54, D10), and the whole run is checked before any effect (R55, D19). -/
def runFault (i : Word) (count : Nat) : Option FaultRecord :=
  if count > 0 ∧ i.toNat + (count - 1) > 0xFFF then some (outOfBoundsFault (max i.toNat 0x1000)) else none

/-- An operand that must be a value 0 to 15 (a key index, R202, or a font digit, R162): none when it is larger and the
parameter says fault. -/
def digitOperand (policy : Params.OutOfRangePolicy) (b : Byte) : Option (Fin 16) :=
  if h : b.toNat < 16 then some ⟨b.toNat, h⟩
  else match policy with
    | .fault => none
    | .mask => some (Fin.ofNat 16 b.toNat)

/-- The record of `raise OperandOutOfRange(V[x])` (R229). -/
def operandFault (b : Byte) : FaultRecord := ⟨.operandOutOfRange, b.toNat⟩

/-- `font_sprite_address(d) = FONT_BASE + FONT_STRIDE * d` (R162, D13). -/
def fontAddress (d : Fin 16) : Word := BitVec.ofNat 16 (Params.fontBase + Params.fontStride * d.val)

/-- The operand of 8xy6 and 8xyE: V[x], the y field being ignored, unless SHIFT_USES_VY (R140, R142, D6). -/
def State.shiftOperand (s : State) (x y : Reg) : Byte := if Params.shiftUsesVy then s.getV y else s.getV x

/-- The decimal digits of a byte, hundreds, tens, ones, one digit a byte (R164). -/
def bcdDigits (b : Byte) : List Byte :=
  [BitVec.ofNat 8 (b.toNat / 100), BitVec.ofNat 8 (b.toNat / 10 % 10), BitVec.ofNat 8 (b.toNat % 10)]

/-- I after Fx55 and Fx65: unchanged, unless LOADSTORE_INCREMENTS_I (R165 to R167, D11). -/
def indexAfterRun (i : Word) (x : Reg) : Word :=
  if Params.loadStoreIncrementsI then i + BitVec.ofNat 16 (x.val + 1) else i

/-- `I <- w`. -/
def State.setI (s : State) (w : Word) : State := { s with i := w }

end Sys2Proof.Machine
end

