-- ==== Sys2Proof/Machine/Flags.lean ====
section
/-! DEFINITION. The values VF takes as a flag (spec/10_state.md R21) and the order in which a flag-writing instruction of
group 8 writes its result and its flag (spec/41_load_alu.md R131). -/

namespace Sys2Proof.Machine

/-- A flag is a full 8-bit write of 0x00 or 0x01 (R21). -/
def flagByte (c : Bool) : Byte := if c then 0x01 else 0x00

/-- 8xy4: 1 when the unbounded sum exceeds 255 (R130, R138). -/
def carryFlag (a b : Byte) : Byte := flagByte (decide (a.toNat + b.toNat > 255))

/-- 8xy5 with (V[x], V[y]) and 8xy7 with (V[y], V[x]): 1 when the minuend is strictly greater, BORROW_EQ_FLAG when equal,
else 0 (R139, R141, conflict C3, D8). -/
def greaterFlag (a b : Byte) : Byte :=
  if a.toNat > b.toNat then 0x01 else if a = b then Params.borrowEqFlag else 0x00

/-- 8xy6: bit 0 of the operand before the shift (R140). -/
def lsbFlag (a : Byte) : Byte := flagByte (a.getLsbD 0)

/-- 8xyE: bit 7 of the operand before the shift (R142). -/
def msbFlag (a : Byte) : Byte := flagByte (a.getLsbD 7)

/-- Write the result to V[x] and the flag to VF, the flag last (R131, conflict C10, D7), unless VF_WRITTEN_LAST is false. -/
def State.setResultAndFlag (s : State) (x : Reg) (result flag : Byte) : State :=
  if Params.vfWrittenLast then (s.setV x result).setV vf flag else (s.setV vf flag).setV x result

end Sys2Proof.Machine
end

