-- ==== Sys2Proof/Machine/Alu.lean ====
section
/-! DEFINITION. Load, arithmetic, logic, shift and random instructions (spec/41_load_alu.md): 6xkk, 7xkk, 8xy0 to 8xy7,
8xyE, Cxkk. All register arithmetic wraps at 8 bits (R130); every operand is read before anything is written (R131). -/

namespace Sys2Proof.Machine

/-- 6xkk `LD Vx, kk` (R132). -/
def execLdImm (x : Reg) (kk : Byte) (s : State) : Result := .next (s.setV x kk).advance

/-- 7xkk `ADD Vx, kk` (R133): no flag. -/
def execAddImm (x : Reg) (kk : Byte) (s : State) : Result := .next (s.setV x (s.getV x + kk)).advance

/-- 8xy0 `LD Vx, Vy` (R134). -/
def execLdReg (x y : Reg) (s : State) : Result := .next (s.setV x (s.getV y)).advance

/-- 8xy1 `OR Vx, Vy` (R135): VF is not reset (D33). -/
def execOr (x y : Reg) (s : State) : Result := .next (s.setV x (s.getV x ||| s.getV y)).advance

/-- 8xy2 `AND Vx, Vy` (R136): VF is not reset (D33). -/
def execAnd (x y : Reg) (s : State) : Result := .next (s.setV x (s.getV x &&& s.getV y)).advance

/-- 8xy3 `XOR Vx, Vy` (R137): VF is not reset (D33). -/
def execXor (x y : Reg) (s : State) : Result := .next (s.setV x (s.getV x ^^^ s.getV y)).advance

/-- 8xy4 `ADD Vx, Vy` (R138): VF = carry. -/
def execAddReg (x y : Reg) (s : State) : Result :=
  .next (s.setResultAndFlag x (s.getV x + s.getV y) (carryFlag (s.getV x) (s.getV y))).advance

/-- 8xy5 `SUB Vx, Vy` (R139): VF = 1 when V[x] > V[y]. -/
def execSub (x y : Reg) (s : State) : Result :=
  .next (s.setResultAndFlag x (s.getV x - s.getV y) (greaterFlag (s.getV x) (s.getV y))).advance

/-- 8xy6 `SHR Vx` (R140): VF = the bit shifted out. -/
def execShr (x y : Reg) (s : State) : Result :=
  .next (s.setResultAndFlag x (s.shiftOperand x y >>> 1) (lsbFlag (s.shiftOperand x y))).advance

/-- 8xy7 `SUBN Vx, Vy` (R141): VF = 1 when V[y] > V[x]. -/
def execSubn (x y : Reg) (s : State) : Result :=
  .next (s.setResultAndFlag x (s.getV y - s.getV x) (greaterFlag (s.getV y) (s.getV x))).advance

/-- 8xyE `SHL Vx` (R142): VF = the bit shifted out. -/
def execShl (x y : Reg) (s : State) : Result :=
  .next (s.setResultAndFlag x (s.shiftOperand x y <<< 1) (msbFlag (s.shiftOperand x y))).advance

/-- Cxkk `RND Vx, kk` (R143): `rand & kk`, `rand` a free value. -/
def execRnd (x : Reg) (kk : Byte) (s : State) : Result := .next (s.useRand.setV x (s.rand &&& kk)).advance

end Sys2Proof.Machine
end

