-- ==== Sys2Proof/Machine/Compositor.lean ====
section
/-! DEFINITION. The sub-blocks display_sprite_compositor and framebuffer_collision_detector: the operation
`Draw(S, h, x0, y0)` of spec/43_display.md R181 with the collision of R183, and the cleared grid of R180. -/

namespace Sys2Proof.Machine

/-- Every cell 0 (R180, R27). -/
def clearGrid : Framebuffer := Vector.replicate Config.displayH (Vector.replicate Config.displayW false)

/-- `fb[row][col]` (R27). -/
def cell (fb : Framebuffer) (row : Fin 32) (col : Fin 64) : Bool := fb[row][col]

/-- `fb[row][col] <- b`. -/
def setCell (fb : Framebuffer) (row : Fin 32) (col : Fin 64) (b : Bool) : Framebuffer :=
  fb.set row (fb[row].set col b)

/-- The row of sprite row r of a draw that starts at y0: `(y0 + r) mod 32` (R181). -/
def rowOfSprite (y0 r : Nat) : Fin 32 := Fin.ofNat 32 (y0 + r)

/-- The column of bit position b of a draw that starts at x0: `(x0 + b) mod 64` (R181). -/
def colOfSprite (x0 b : Nat) : Fin 64 := Fin.ofNat 64 (x0 + b)

/-- Bit position b of a sprite byte, b = 0 the leftmost, which is bit 7 (R181). -/
def spriteBit (byte : Byte) (b : Nat) : Bool := byte.getLsbD (7 - b)

/-- One position of a draw: the cell is XORed with the sprite bit, and a cell erased by it is a collision (R181, R183). -/
def drawCell (acc : Framebuffer × Bool) (row : Fin 32) (col : Fin 64) (bit : Bool) : Framebuffer × Bool :=
  let old := cell acc.1 row col
  (setCell acc.1 row col (old ^^ bit), acc.2 || (bit && old))

/-- One row of a draw: bit positions 0 to 7 (R181). -/
def drawRow (acc : Framebuffer × Bool) (x0 : Nat) (row : Fin 32) (byte : Byte) : Framebuffer × Bool :=
  (List.range 8).foldl (fun acc b => drawCell acc row (colOfSprite x0 b) (spriteBit byte b)) acc

/-- The rows of a draw from sprite row r on, in ascending order. -/
def drawRows (acc : Framebuffer × Bool) (x0 y0 : Nat) : Nat → List Byte → Framebuffer × Bool
  | _, [] => acc
  | r, byte :: rest => drawRows (drawRow acc x0 (rowOfSprite y0 r) byte) x0 y0 (r + 1) rest

/-- `Draw(S, h, x0, y0)` of R181: the new framebuffer, and the collision aggregated over the whole sprite (R183). -/
def draw (fb : Framebuffer) (sprite : List Byte) (x0 y0 : Nat) : Framebuffer × Bool :=
  drawRows (fb, false) x0 y0 0 sprite

end Sys2Proof.Machine
end

