-- ==== Sys2Proof/Machine/Display.lean ====
section
/-! DEFINITION. Display instructions (spec/43_display.md): 00E0 and Dxyn. -/

namespace Sys2Proof.Machine

/-- 00E0 `CLS` (R180): VF is not touched. -/
def execCls (s : State) : Result := .next { s with fb := clearGrid }.advance

/-- Dxyn `DRW Vx, Vy, n` (R182): the n sprite bytes are at I (D12); the coordinates are read before VF is written; VF is
always written. -/
def execDrw (x y : Reg) (n : Fin 16) (s : State) : Result :=
  match runFault s.i n.val with
  | some f => .next (s.raise f)
  | none =>
    let drawn := draw s.fb (s.mem.readRun s.i.toNat n.val) (s.getV x).toNat (s.getV y).toNat
    .next ({ s with fb := drawn.1 }.setV vf (flagByte drawn.2)).advance

end Sys2Proof.Machine
end

