-- ==== Sys2Proof/Machine/Flow.lean ====
section
/-! DEFINITION. Control transfer (spec/40_flow.md): 00EE, 1nnn, 2nnn, Bnnn, 3xkk, 4xkk, 5xy0, 9xy0. -/

namespace Sys2Proof.Machine

/-- 00EE `RET` (R111). -/
def execRet (s : State) : Result :=
  match s.pop with
  | none => .next (s.raise ⟨.stackUnderflow, s.pc.toNat⟩)
  | some (target, t) => .next (t.jumpTo target)

/-- 1nnn `JP nnn` (R114). -/
def execJp (nnn : BitVec 12) (s : State) : Result := .next (s.jumpTo (addrOf nnn))

/-- 2nnn `CALL nnn` (R112): the entry pushed is the return address `pc + 2` (conflict C4). -/
def execCall (nnn : BitVec 12) (s : State) : Result :=
  match s.push (s.pc + 2) with
  | none => .next (s.raise ⟨.stackOverflow, s.pc.toNat⟩)
  | some t => .next (t.jumpTo (addrOf nnn))

/-- 3xkk `SE Vx, kk` (R115). -/
def execSeImm (x : Reg) (kk : Byte) (s : State) : Result := .next (s.skipIf (s.getV x == kk))

/-- 4xkk `SNE Vx, kk` (R116). -/
def execSneImm (x : Reg) (kk : Byte) (s : State) : Result := .next (s.skipIf (s.getV x != kk))

/-- 5xy0 `SE Vx, Vy` (R117). -/
def execSeReg (x y : Reg) (s : State) : Result := .next (s.skipIf (s.getV x == s.getV y))

/-- 9xy0 `SNE Vx, Vy` (R118). -/
def execSneReg (x y : Reg) (s : State) : Result := .next (s.skipIf (s.getV x != s.getV y))

/-- Bnnn `JP V0, nnn` (R113): the register is always V[0]. -/
def execJpV0 (nnn : BitVec 12) (s : State) : Result := .next (s.jumpTo (indexedTarget nnn (s.getV 0)))

end Sys2Proof.Machine
end

