-- ==== Sys2Proof/Machine/IndexMemory.lean ====
section
/-! DEFINITION. Index register and memory instructions (spec/42_index_memory.md): Annn, Fx1E, Fx29, Fx33, Fx55, Fx65. -/

namespace Sys2Proof.Machine

/-- Annn `LD I, nnn` (R160). -/
def execLdI (nnn : BitVec 12) (s : State) : Result := .next (s.setI (addrOf nnn)).advance

/-- Fx1E `ADD I, Vx` (R161): modulo 65536, VF untouched. -/
def execAddI (x : Reg) (s : State) : Result := .next (s.setI (indexSum s.i (s.getV x))).advance

/-- Fx29 `LD F, Vx` (R162): the address of a glyph; a digit above 15 faults. -/
def execLdF (x : Reg) (s : State) : Result :=
  match digitOperand Params.fontDigitOor (s.getV x) with
  | none => .next (s.raise (operandFault (s.getV x)))
  | some d => .next (s.setI (fontAddress d)).advance

/-- Fx33 `LD B, Vx` (R164): three decimal digits at I, I + 1, I + 2. -/
def execLdB (x : Reg) (s : State) : Result :=
  match runFault s.i 3 with
  | some f => .next (s.raise f)
  | none => .next { s with mem := s.mem.writeRun s.i.toNat (bcdDigits (s.getV x)) }.advance

/-- Fx55 `LD [I], Vx` (R165): store V[0] to V[x] at I. -/
def execLdMemVx (x : Reg) (s : State) : Result :=
  match runFault s.i (x.val + 1) with
  | some f => .next (s.raise f)
  | none =>
    .next ({ s with mem := s.mem.writeRun s.i.toNat (s.regsUpTo x) }.setI (indexAfterRun s.i x)).advance

/-- Fx65 `LD Vx, [I]` (R166): load V[0] to V[x] from I. -/
def execLdVxMem (x : Reg) (s : State) : Result :=
  match runFault s.i (x.val + 1) with
  | some f => .next (s.raise f)
  | none =>
    .next ((s.setRegsUpTo x (s.mem.readRun s.i.toNat (x.val + 1))).setI (indexAfterRun s.i x)).advance

end Sys2Proof.Machine
end

