-- ==== Sys2Proof/Machine/KeypadTimers.lean ====
section
/-! DEFINITION. Keypad and timer instructions (spec/44_keypad_timers.md): Ex9E, ExA1, Fx0A, Fx07, Fx15, Fx18. -/

namespace Sys2Proof.Machine

/-- Ex9E `SKP Vx` (R203): the press is not consumed; an index above 15 faults. -/
def execSkp (x : Reg) (s : State) : Result :=
  match digitOperand Params.keyIndexOor (s.getV x) with
  | none => .next (s.raise (operandFault (s.getV x)))
  | some k => .next (s.skipIf (s.isPressed k))

/-- ExA1 `SKNP Vx` (R204). -/
def execSknp (x : Reg) (s : State) : Result :=
  match digitOperand Params.keyIndexOor (s.getV x) with
  | none => .next (s.raise (operandFault (s.getV x)))
  | some k => .next (s.skipIf (!s.isPressed k))

/-- Fx07 `LD Vx, DT` (R206). -/
def execLdVxDt (x : Reg) (s : State) : Result := .next (s.setV x s.dt).advance

/-- Fx0A `LD Vx, K` (R205): blocked while no key is pressed; else the key reported is consumed. -/
def execLdVxK (x : Reg) (s : State) : Result :=
  match s.awaitKey with
  | none => .next s.blocked
  | some k => .next ((s.setV x (BitVec.ofNat 8 k.val)).setKeyState k false).advance

/-- Fx15 `LD DT, Vx` (R207). -/
def execLdDtVx (x : Reg) (s : State) : Result := .next { s with dt := s.getV x }.advance

/-- Fx18 `LD ST, Vx` (R208). -/
def execLdStVx (x : Reg) (s : State) : Result := .next { s with st := s.getV x }.advance

end Sys2Proof.Machine
end

