-- ==== Sys2Proof/Syntax.lean ====
section
/-! DEFINITION. The 34 instructions of chip8_cpu_core (spec/30_encoding.md R86), one constructor per row of
spec/opcode_table.json, in the table's order. The operands are the fields of R81: `x`, `y` registers, `kk` an immediate
byte, `nnn` a 12-bit address, `n` the row count of a sprite. -/

namespace Sys2Proof

/-- One constructor per row of the opcode table (R86); its docstring gives the pattern. -/
inductive Instr where
  /-- 00E0 `CLS` -/
  | cls
  /-- 00EE `RET` -/
  | ret
  /-- 1nnn `JP nnn` -/
  | jp (nnn : BitVec 12)
  /-- 2nnn `CALL nnn` -/
  | call (nnn : BitVec 12)
  /-- 3xkk `SE Vx, kk` -/
  | seImm (x : Reg) (kk : Byte)
  /-- 4xkk `SNE Vx, kk` -/
  | sneImm (x : Reg) (kk : Byte)
  /-- 5xy0 `SE Vx, Vy` -/
  | seReg (x y : Reg)
  /-- 6xkk `LD Vx, kk` -/
  | ldImm (x : Reg) (kk : Byte)
  /-- 7xkk `ADD Vx, kk` -/
  | addImm (x : Reg) (kk : Byte)
  /-- 8xy0 `LD Vx, Vy` -/
  | ldReg (x y : Reg)
  /-- 8xy1 `OR Vx, Vy` -/
  | or (x y : Reg)
  /-- 8xy2 `AND Vx, Vy` -/
  | and (x y : Reg)
  /-- 8xy3 `XOR Vx, Vy` -/
  | xor (x y : Reg)
  /-- 8xy4 `ADD Vx, Vy` -/
  | addReg (x y : Reg)
  /-- 8xy5 `SUB Vx, Vy` -/
  | sub (x y : Reg)
  /-- 8xy6 `SHR Vx`; the y field is decoded and, with SHIFT_USES_VY = false, ignored (R90) -/
  | shr (x y : Reg)
  /-- 8xy7 `SUBN Vx, Vy` -/
  | subn (x y : Reg)
  /-- 8xyE `SHL Vx`; the y field is decoded and, with SHIFT_USES_VY = false, ignored (R90) -/
  | shl (x y : Reg)
  /-- 9xy0 `SNE Vx, Vy` -/
  | sneReg (x y : Reg)
  /-- Annn `LD I, nnn` -/
  | ldI (nnn : BitVec 12)
  /-- Bnnn `JP V0, nnn` -/
  | jpV0 (nnn : BitVec 12)
  /-- Cxkk `RND Vx, kk` -/
  | rnd (x : Reg) (kk : Byte)
  /-- Dxyn `DRW Vx, Vy, n` -/
  | drw (x y : Reg) (n : Fin 16)
  /-- Ex9E `SKP Vx` -/
  | skp (x : Reg)
  /-- ExA1 `SKNP Vx` -/
  | sknp (x : Reg)
  /-- Fx07 `LD Vx, DT` -/
  | ldVxDt (x : Reg)
  /-- Fx0A `LD Vx, K` -/
  | ldVxK (x : Reg)
  /-- Fx15 `LD DT, Vx` -/
  | ldDtVx (x : Reg)
  /-- Fx18 `LD ST, Vx` -/
  | ldStVx (x : Reg)
  /-- Fx1E `ADD I, Vx` -/
  | addI (x : Reg)
  /-- Fx29 `LD F, Vx` -/
  | ldF (x : Reg)
  /-- Fx33 `LD B, Vx` -/
  | ldB (x : Reg)
  /-- Fx55 `LD [I], Vx` -/
  | ldMemVx (x : Reg)
  /-- Fx65 `LD Vx, [I]` -/
  | ldVxMem (x : Reg)
  deriving DecidableEq, Repr

end Sys2Proof
end

