-- ==== Sys2Proof/WellFormed.lean ====
section
/-! DEFINITION. Which 16-bit words are instructions: the opcode table of spec/30_encoding.md R86 as (mask, match) rows,
and the well-formedness of a word (R84, R88): it is selected by a row. The operands of an `Instr` need no check of their
own: their types hold exactly the values of the fields of R81 (R83: every register index is valid). -/

namespace Sys2Proof

/-- One row of the opcode table: `op & mask = pattern` selects it (R86). -/
structure OpcodeRow where
  mnemonic : String
  pattern : Opcode
  mask : Opcode
  deriving DecidableEq, Repr

/-- A row selects a word when its fixed bits match (R85: every literal digit must match). -/
def OpcodeRow.selects (r : OpcodeRow) (op : Opcode) : Bool :=
  op &&& r.mask == r.pattern

/-- The row of each instruction (R86). -/
def rowOf : Instr → OpcodeRow
  | .cls => ⟨"CLS", 0x00E0, 0xFFFF⟩
  | .ret => ⟨"RET", 0x00EE, 0xFFFF⟩
  | .jp _ => ⟨"JP_nnn", 0x1000, 0xF000⟩
  | .call _ => ⟨"CALL_nnn", 0x2000, 0xF000⟩
  | .seImm _ _ => ⟨"SE_Vx__kk", 0x3000, 0xF000⟩
  | .sneImm _ _ => ⟨"SNE_Vx__kk", 0x4000, 0xF000⟩
  | .seReg _ _ => ⟨"SE_Vx__Vy", 0x5000, 0xF00F⟩
  | .ldImm _ _ => ⟨"LD_Vx__kk", 0x6000, 0xF000⟩
  | .addImm _ _ => ⟨"ADD_Vx__kk", 0x7000, 0xF000⟩
  | .ldReg _ _ => ⟨"LD_Vx__Vy", 0x8000, 0xF00F⟩
  | .or _ _ => ⟨"OR_Vx__Vy", 0x8001, 0xF00F⟩
  | .and _ _ => ⟨"AND_Vx__Vy", 0x8002, 0xF00F⟩
  | .xor _ _ => ⟨"XOR_Vx__Vy", 0x8003, 0xF00F⟩
  | .addReg _ _ => ⟨"ADD_Vx__Vy", 0x8004, 0xF00F⟩
  | .sub _ _ => ⟨"SUB_Vx__Vy", 0x8005, 0xF00F⟩
  | .shr _ _ => ⟨"SHR_Vx", 0x8006, 0xF00F⟩
  | .subn _ _ => ⟨"SUBN_Vx__Vy", 0x8007, 0xF00F⟩
  | .shl _ _ => ⟨"SHL_Vx", 0x800E, 0xF00F⟩
  | .sneReg _ _ => ⟨"SNE_Vx__Vy", 0x9000, 0xF00F⟩
  | .ldI _ => ⟨"LD_I__nnn", 0xA000, 0xF000⟩
  | .jpV0 _ => ⟨"JP_V0__nnn", 0xB000, 0xF000⟩
  | .rnd _ _ => ⟨"RND_Vx__kk", 0xC000, 0xF000⟩
  | .drw _ _ _ => ⟨"DRW_Vx__Vy__n", 0xD000, 0xF000⟩
  | .skp _ => ⟨"SKP_Vx", 0xE09E, 0xF0FF⟩
  | .sknp _ => ⟨"SKNP_Vx", 0xE0A1, 0xF0FF⟩
  | .ldVxDt _ => ⟨"LD_Vx__DT", 0xF007, 0xF0FF⟩
  | .ldVxK _ => ⟨"LD_Vx__K", 0xF00A, 0xF0FF⟩
  | .ldDtVx _ => ⟨"LD_DT__Vx", 0xF015, 0xF0FF⟩
  | .ldStVx _ => ⟨"LD_ST__Vx", 0xF018, 0xF0FF⟩
  | .addI _ => ⟨"ADD_I__Vx", 0xF01E, 0xF0FF⟩
  | .ldF _ => ⟨"LD_F__Vx", 0xF029, 0xF0FF⟩
  | .ldB _ => ⟨"LD_B__Vx", 0xF033, 0xF0FF⟩
  | .ldMemVx _ => ⟨"LD__I___Vx", 0xF055, 0xF0FF⟩
  | .ldVxMem _ => ⟨"LD_Vx___I", 0xF065, 0xF0FF⟩

/-- The complete opcode table, rows 1 to 34 in the order of R86 (a row does not depend on its operands). -/
def opcodeTable : List OpcodeRow :=
  [rowOf .cls,
   rowOf .ret,
   rowOf (.jp 0),
   rowOf (.call 0),
   rowOf (.seImm 0 0),
   rowOf (.sneImm 0 0),
   rowOf (.seReg 0 0),
   rowOf (.ldImm 0 0),
   rowOf (.addImm 0 0)] ++
  [rowOf (.ldReg 0 0),
   rowOf (.or 0 0),
   rowOf (.and 0 0),
   rowOf (.xor 0 0),
   rowOf (.addReg 0 0),
   rowOf (.sub 0 0),
   rowOf (.shr 0 0),
   rowOf (.subn 0 0),
   rowOf (.shl 0 0)] ++
  [rowOf (.sneReg 0 0),
   rowOf (.ldI 0),
   rowOf (.jpV0 0),
   rowOf (.rnd 0 0),
   rowOf (.drw 0 0 0),
   rowOf (.skp 0),
   rowOf (.sknp 0),
   rowOf (.ldVxDt 0)] ++
  [rowOf (.ldVxK 0),
   rowOf (.ldDtVx 0),
   rowOf (.ldStVx 0),
   rowOf (.addI 0),
   rowOf (.ldF 0),
   rowOf (.ldB 0),
   rowOf (.ldMemVx 0),
   rowOf (.ldVxMem 0)]

/-- A word is an instruction exactly when some row selects it; every other word is illegal (R88). -/
def wellFormedWord (op : Opcode) : Bool :=
  opcodeTable.any (·.selects op)

end Sys2Proof
end

