-- ==== Sys2Proof/Decode.lean ====
section
/-! DEFINITION. The decoder of spec/30_encoding.md R84, total on the 65536 words and on any bytes, and after it an
encoder written from the patterns of R86 and the field positions of R81. -/

namespace Sys2Proof

/-! ## Fields (R81) -/

/-- `g = op[15:12]`, the instruction group. -/
def fieldG (op : Opcode) : BitVec 4 := op.extractLsb' 12 4

/-- `x = op[11:8]`, a register index. -/
def fieldX (op : Opcode) : Reg := (op.extractLsb' 8 4).toFin

/-- `y = op[7:4]`, a register index. -/
def fieldY (op : Opcode) : Reg := (op.extractLsb' 4 4).toFin

/-- `n = op[3:0]`, the sprite height or a sub-opcode. -/
def fieldN (op : Opcode) : BitVec 4 := op.extractLsb' 0 4

/-- `kk = op[7:0]`, an immediate byte or a sub-opcode. -/
def fieldKk (op : Opcode) : Byte := op.extractLsb' 0 8

/-- `nnn = op[11:0]`, an address immediate. -/
def fieldNnn (op : Opcode) : BitVec 12 := op.extractLsb' 0 12

/-! ## The decoder (R84) -/

/-- The outcome of decoding one word: one of the 34 instructions, or `Illegal`, which carries the raw word for the fault
`UnimplementedOpcode(op)` (R84, R88). -/
inductive Decoded where
  /-- the word is this instruction -/
  | instr (i : Instr)
  /-- the word matches no row of R86; the step that fetched it faults (R88) -/
  | illegal (op : Opcode)
  deriving DecidableEq, Repr

/-- Group 0: 00E0 and 00EE only; 0nnn is not an instruction (R87, conflict C2, decision D2). -/
def decodeGroup0 (op : Opcode) : Decoded :=
  if op = 0x00E0 then .instr .cls
  else if op = 0x00EE then .instr .ret
  else .illegal op

/-- Group 8: the register-register operations, selected by `n` (R91, decision D4). -/
def decodeGroup8 (op : Opcode) : Decoded :=
  match (fieldN op).toNat with
  | 0x0 => .instr (.ldReg (fieldX op) (fieldY op))
  | 0x1 => .instr (.or (fieldX op) (fieldY op))
  | 0x2 => .instr (.and (fieldX op) (fieldY op))
  | 0x3 => .instr (.xor (fieldX op) (fieldY op))
  | 0x4 => .instr (.addReg (fieldX op) (fieldY op))
  | 0x5 => .instr (.sub (fieldX op) (fieldY op))
  | 0x6 => .instr (.shr (fieldX op) (fieldY op))
  | 0x7 => .instr (.subn (fieldX op) (fieldY op))
  | 0xE => .instr (.shl (fieldX op) (fieldY op))
  | _ => .illegal op

/-- Group E: the key skips, selected by `kk` (R84). -/
def decodeGroupE (op : Opcode) : Decoded :=
  match (fieldKk op).toNat with
  | 0x9E => .instr (.skp (fieldX op))
  | 0xA1 => .instr (.sknp (fieldX op))
  | _ => .illegal op

/-- Group F: keypad wait, timers, index and memory instructions, selected by `kk` (R84, R92, decision D5). -/
def decodeGroupF (op : Opcode) : Decoded :=
  match (fieldKk op).toNat with
  | 0x07 => .instr (.ldVxDt (fieldX op))
  | 0x0A => .instr (.ldVxK (fieldX op))
  | 0x15 => .instr (.ldDtVx (fieldX op))
  | 0x18 => .instr (.ldStVx (fieldX op))
  | 0x1E => .instr (.addI (fieldX op))
  | 0x29 => .instr (.ldF (fieldX op))
  | 0x33 => .instr (.ldB (fieldX op))
  | 0x55 => .instr (.ldMemVx (fieldX op))
  | 0x65 => .instr (.ldVxMem (fieldX op))
  | _ => .illegal op

/-- `Decode(op)` of R84; groups 5 and 9 require `n = 0` (R85, decision D3). -/
def decode (op : Opcode) : Decoded :=
  match (fieldG op).toNat with
  | 0x0 => decodeGroup0 op
  | 0x1 => .instr (.jp (fieldNnn op))
  | 0x2 => .instr (.call (fieldNnn op))
  | 0x3 => .instr (.seImm (fieldX op) (fieldKk op))
  | 0x4 => .instr (.sneImm (fieldX op) (fieldKk op))
  | 0x5 => if fieldN op = 0 then .instr (.seReg (fieldX op) (fieldY op)) else .illegal op
  | 0x6 => .instr (.ldImm (fieldX op) (fieldKk op))
  | 0x7 => .instr (.addImm (fieldX op) (fieldKk op))
  | 0x8 => decodeGroup8 op
  | 0x9 => if fieldN op = 0 then .instr (.sneReg (fieldX op) (fieldY op)) else .illegal op
  | 0xA => .instr (.ldI (fieldNnn op))
  | 0xB => .instr (.jpV0 (fieldNnn op))
  | 0xC => .instr (.rnd (fieldX op) (fieldKk op))
  | 0xD => .instr (.drw (fieldX op) (fieldY op) (fieldN op).toFin)
  | 0xE => decodeGroupE op
  | _ => decodeGroupF op

/-! ## Bytes (R80, R53: high byte first) -/

/-- The word of two bytes, the byte at the lower address in bits 15 to 8 (R53). -/
def wordOfBytes (hi lo : Byte) : Opcode := hi ++ lo

/-- The two bytes of a word, in address order (R53). -/
def bytesOfWord (op : Opcode) : List Byte := [op.extractLsb' 8 8, op.extractLsb' 0 8]

/-- What the decoder answers on a list of bytes. -/
inductive DecodedBytes where
  /-- the first two bytes are this instruction; the other bytes are left -/
  | instr (i : Instr) (rest : List Byte)
  /-- the first two bytes are this illegal word -/
  | illegal (op : Opcode) (rest : List Byte)
  /-- fewer than two bytes: no instruction word (every instruction is two bytes long, R80) -/
  | truncated
  deriving DecidableEq, Repr

/-- Decode the first instruction word of a list of bytes; the length is always two bytes (R80). -/
def decodeBytes : List Byte → DecodedBytes
  | hi :: lo :: rest =>
    match decode (wordOfBytes hi lo) with
    | .instr i => .instr i rest
    | .illegal op => .illegal op rest
  | _ => .truncated

/-- The instruction of a word whose low `nbits` bits are those of `w` and whose other bits are 0, laid out as the hardware
stores it (high byte first, R53) and given to the decoder; `none` where the decoder refuses the word. -/
def decodeTableWord (nbits w : Nat) : Option Instr :=
  match decodeBytes (bytesOfWord (BitVec.ofNat 16 (w % 2 ^ nbits))) with
  | .instr i _ => some i
  | _ => none

/-! ## The encoder (R81, R82, R86) -/

/-- The four bits of a register index or of a sprite height. -/
def nibble (x : Fin 16) : BitVec 4 := BitVec.ofFin x

/-- Format NNN. -/
def encNnn (g : BitVec 4) (nnn : BitVec 12) : Opcode := g ++ nnn

/-- Format XKK; with a fixed `kk` it is format X. -/
def encXkk (g : BitVec 4) (x : Reg) (kk : Byte) : Opcode := (g ++ nibble x) ++ kk

/-- Format XYN; with a fixed `n` it is format XY. -/
def encXyn (g : BitVec 4) (x y : Reg) (n : BitVec 4) : Opcode := (g ++ nibble x) ++ (nibble y ++ n)

/-- The word of an instruction, from the patterns of R86. -/
def encode : Instr → Opcode
  | .cls => 0x00E0
  | .ret => 0x00EE
  | .jp nnn => encNnn 0x1 nnn
  | .call nnn => encNnn 0x2 nnn
  | .seImm x kk => encXkk 0x3 x kk
  | .sneImm x kk => encXkk 0x4 x kk
  | .seReg x y => encXyn 0x5 x y 0x0
  | .ldImm x kk => encXkk 0x6 x kk
  | .addImm x kk => encXkk 0x7 x kk
  | .ldReg x y => encXyn 0x8 x y 0x0
  | .or x y => encXyn 0x8 x y 0x1
  | .and x y => encXyn 0x8 x y 0x2
  | .xor x y => encXyn 0x8 x y 0x3
  | .addReg x y => encXyn 0x8 x y 0x4
  | .sub x y => encXyn 0x8 x y 0x5
  | .shr x y => encXyn 0x8 x y 0x6
  | .subn x y => encXyn 0x8 x y 0x7
  | .shl x y => encXyn 0x8 x y 0xE
  | .sneReg x y => encXyn 0x9 x y 0x0
  | .ldI nnn => encNnn 0xA nnn
  | .jpV0 nnn => encNnn 0xB nnn
  | .rnd x kk => encXkk 0xC x kk
  | .drw x y n => encXyn 0xD x y (nibble n)
  | .skp x => encXkk 0xE x 0x9E
  | .sknp x => encXkk 0xE x 0xA1
  | .ldVxDt x => encXkk 0xF x 0x07
  | .ldVxK x => encXkk 0xF x 0x0A
  | .ldDtVx x => encXkk 0xF x 0x15
  | .ldStVx x => encXkk 0xF x 0x18
  | .addI x => encXkk 0xF x 0x1E
  | .ldF x => encXkk 0xF x 0x29
  | .ldB x => encXkk 0xF x 0x33
  | .ldMemVx x => encXkk 0xF x 0x55
  | .ldVxMem x => encXkk 0xF x 0x65

/-- The two bytes of an instruction as memory holds them, high byte first (R53). -/
def encodeBytes (i : Instr) : List Byte := bytesOfWord (encode i)

end Sys2Proof
end

