-- ==== Sys2Proof/Machine/Fetch.lean ====
section
/-! DEFINITION. The front half of a step (spec/60_exceptions.md R220, R230): the latch, the fetch (spec/20_memory.md R53),
the decode; and how one instruction word is placed where the next step fetches it. -/

namespace Sys2Proof.Machine

/-- The fetch's precondition: PC even (FETCH_REQUIRES_EVEN_PC, D18) and at most 0xFFE (R53). -/
def fetchable (pc : Word) : Bool :=
  !(Params.fetchRequiresEvenPc && pc.getLsbD 0) && decide (pc.toNat ≤ 0xFFE)

/-- `Fetch()` of R53: `MemRead(pc, 1) ++ MemRead(pc + 1, 1)`, or `OutOfBounds(pc)`. -/
def fetch (s : State) : Except FaultRecord Opcode :=
  if fetchable s.pc then
    match memRead s.mem s.pc.toNat, memRead s.mem (s.pc.toNat + 1) with
    | .ok hi, .ok lo => .ok (wordOfBytes hi lo)
    | .error f, _ => .error f
    | _, .error f => .error f
  else .error (outOfBoundsFault s.pc.toNat)

/-- What a step does after the latch, the fetch and the decode. -/
inductive StepStart where
  /-- the latch is set: nothing is fetched (R231) -/
  | halted (f : FaultRecord)
  /-- the fetch or the decode raised this fault -/
  | faulted (f : FaultRecord)
  /-- this instruction is executed -/
  | run (i : Instr)
  deriving DecidableEq, Repr

/-- The checks of a step in their fixed order: latch, alignment, bounds, decode (R230). -/
def beginStep (s : State) : StepStart :=
  match s.fault with
  | some f => .halted f
  | none =>
    match fetch s with
    | .error f => .faulted f
    | .ok op =>
      match decode op with
      | .illegal w => .faulted ⟨.unimplementedOpcode, w.toNat⟩
      | .instr i => .run i

/-- Whether the next step is blocked: PC points at an Fx0A and no key is pressed (R31, D34). -/
def State.isBlocked (s : State) : Bool :=
  match beginStep s with
  | .run (.ldVxK _) => s.awaitKey.isNone
  | _ => false

/-- The state with an instruction word stored where the next step fetches: at PC, high byte first (R53). The fetch needs a
clear latch and a fetchable PC; where PC is not fetchable it is set to 0x200 (notes/assumptions/32.md). -/
def placeWord (s : State) (op : Opcode) : State :=
  let pc := if fetchable s.pc then s.pc else BitVec.ofNat 16 Config.romBase
  { s with pc := pc, fault := none, mem := s.mem.writeRun pc.toNat (bytesOfWord op) }

end Sys2Proof.Machine
end

