-- ==== Sys2Proof/Machine/Step.lean ====
section
/-! DEFINITION. The event `Step` (spec/60_exceptions.md R220, R221). It always answers a next state: a completed, a blocked
and a faulting step, and the step of a halted core (notes/assumptions/1.md). -/

namespace Sys2Proof.Machine

/-- `Step(rand)` of R220; `rand` is the free value `State.rand`. -/
def step (s : State) : Host.Outcome State Fault Refusal :=
  match beginStep s with
  | .halted _ => .next s.halted
  | .faulted f => .next (s.raise f)
  | .run i => exec i s

/-- The state with the instruction word of `nbits` bits `w` (the bits above them 0) placed where the next step fetches it. -/
def State.withFetchWord (s : State) (nbits w : Nat) : State :=
  placeWord s (BitVec.ofNat 16 (w % 2 ^ nbits))

end Sys2Proof.Machine
end

