-- ==== Sys2Proof/Machine/Events.lean ====
section
/-! DEFINITION. The host's side of the block: the events `Reset`, `LoadRom`, `Tick` and `SetKey` (spec/00_scope.md R7,
spec/70_reset_and_hazards.md R260, R264, spec/60_exceptions.md R235, spec/44_keypad_timers.md R201), what each event gives
the host back (R221, R240, R242), and the read ports (R243, R244). -/

namespace Sys2Proof.Machine

/-- `Reset` (R260): every element of state takes its reset value. Only the model's own count of used random bytes goes on, so
that the bytes after a reset are no repetition of those before it (notes/assumptions/2.md). -/
def hostReset (s : State) : State := { State.reset with draws := s.draws }

/-- The check of `LoadRom`: `RomTooLarge(L)` for an image of L > 3584 bytes, else none (R264, R265). -/
def romFault (bytes : List Byte) : Option FaultRecord :=
  if bytes.length > Config.romMax then some ⟨.romTooLarge, bytes.length⟩ else none

/-- `LoadRom(bytes)` (R264, R265): the image copied verbatim to 0x200, or, when it is too large, the latch set and nothing
copied (D25). -/
def hostLoadRom (bytes : List Byte) (s : State) : State :=
  match romFault bytes with
  | some f => s.raise f
  | none => { s with mem := s.mem.writeRun Config.romBase bytes }

/-- `Tick` (R235): both timers, each by its own test; it does not read the latch. -/
def hostTick (s : State) : State := { s with dt := tickTimer s.dt, st := tickTimer s.st }

/-- `SetKey(index, pressed)` (R201); an index above 15 is not a move the host has (R241). -/
def hostSetKey (index : Fin 16) (pressed : Bool) (s : State) : State := s.setKeyState index pressed

/-- The five kinds of event (R7). -/
inductive Event where
  | reset
  | loadRom (bytes : List Byte)
  | step
  | tick
  | setKey (index : Fin 16) (pressed : Bool)
  deriving DecidableEq, Repr

/-- The effect of one event; each is atomic (R7). -/
def runEvent (e : Event) (s : State) : Host.Outcome State Fault Refusal :=
  match e with
  | .reset => .next (hostReset s)
  | .loadRom bytes => .next (hostLoadRom bytes s)
  | .step => step s
  | .tick => .next (hostTick s)
  | .setKey index pressed => .next (hostSetKey index pressed s)

/-- The result a step gives the host (R221). -/
inductive StepReport where
  | completed
  | blocked
  | fault (f : FaultRecord)
  deriving DecidableEq, Repr

/-- The result of the step that leads from `s` to `t`: a fault when the latch is set after it, `Blocked` when `s` was at an
Fx0A with no key pressed, else `Completed` (R221, R31, R242). -/
def stepReport (s t : State) : StepReport :=
  match t.fault with
  | some f => .fault f
  | none => if s.isBlocked then .blocked else .completed

/-- The result `LoadRom` gives the host (R240). -/
inductive LoadReport where
  | ok
  | fault (f : FaultRecord)
  deriving DecidableEq, Repr

/-- The result of `LoadRom(bytes)`: ok, or the fault it raised (R240, R242). -/
def loadReport (bytes : List Byte) : LoadReport :=
  match romFault bytes with
  | some f => .fault f
  | none => .ok

/-- What the host gets back from an event (R240). -/
inductive EventReport where
  /-- from `Reset`, `Tick` and `SetKey` -/
  | nothing
  /-- from `LoadRom` -/
  | load (r : LoadReport)
  /-- from `Step` -/
  | step (r : StepReport)
  deriving DecidableEq, Repr

/-- What the host gets back from the event that leads from `s` to `t` (R240). -/
def eventReport (e : Event) (s t : State) : EventReport :=
  match e with
  | .reset => .nothing
  | .loadRom bytes => .load (loadReport bytes)
  | .step => .step (stepReport s t)
  | .tick => .nothing
  | .setKey _ _ => .nothing

/-- The fault that a report carries, none where it carries none (R242). -/
def reportedFault : EventReport → Option FaultRecord
  | .load (.fault f) => some f
  | .step (.fault f) => some f
  | .load .ok => none
  | .step .completed => none
  | .step .blocked => none
  | .nothing => none

/-- The framebuffer read port: cell index c is row c div 64, column c mod 64 (R243, D24). -/
def framebufferPort (s : State) (c : Fin 2048) : Bool :=
  cell s.fb (Fin.ofNat 32 (c.val / 64)) (Fin.ofNat 64 (c.val % 64))

/-- The status outputs: DT, ST and the fault latch (R244). -/
def statusPort (s : State) : Byte × Byte × Option FaultRecord := (s.dt, s.st, s.fault)

/-- The numeric code of a fault, 0 for none (R223, D20). -/
def faultCode : Option FaultRecord → Nat
  | none => 0
  | some f =>
    match f.kind with
    | .outOfBounds => 1
    | .stackOverflow => 2
    | .stackUnderflow => 3
    | .unimplementedOpcode => 4
    | .romTooLarge => 5
    | .operandOutOfRange => 6

end Sys2Proof.Machine
end

