-- ==== Sys2Proof/Safety.lean ====
section
/-! DEFINITION. The terms claims use: which pieces of state two states agree on (the frame rule, spec/00_scope.md R8), the
invariant of the machine, the runs the host may drive (spec/60_exceptions.md R240, R241), the end-of-run convention (R247),
sequences of instructions, and the cell-wise reading of a sprite draw (spec/43_display.md R184). -/

namespace Sys2Proof.Safety

open Sys2Proof.Machine

/-! ## Frames (R8) -/

/-- The pieces of state, one for each field of `State`. -/
inductive Part where
  | v | i | pc | stack | sp | dt | st | fb | key | mem | fault | draws
  deriving DecidableEq, Repr

/-- Two states agree on a piece of state; memory is compared byte by byte through `Memory.read`. -/
def Part.Same (p : Part) (s t : State) : Prop :=
  match p with
  | .v => ∀ r : Reg, t.getV r = s.getV r
  | .i => t.i = s.i
  | .pc => t.pc = s.pc
  | .stack => t.stack = s.stack
  | .sp => t.sp = s.sp
  | .dt => t.dt = s.dt
  | .st => t.st = s.st
  | .fb => t.fb = s.fb
  | .key => t.key = s.key
  | .mem => ∀ a : Nat, t.mem.read a = s.mem.read a
  | .fault => t.fault = s.fault
  | .draws => t.draws = s.draws

/-- Every piece of state but those listed is the same in both states. -/
def OnlyChanges (ps : List Part) (s t : State) : Prop := ∀ p : Part, p ∉ ps → p.Same s t

/-- The frame of an instruction that writes general registers only: every register but those listed is unchanged, PC advances
by 2, and nothing else changes. -/
def WritesOnlyV (xs : List Reg) (s t : State) : Prop :=
  (∀ r : Reg, r ∉ xs → t.getV r = s.getV r) ∧ t.pc = s.pc + 2 ∧ OnlyChanges [.v, .pc] s t

/-! ## The invariant -/

/-- What the record of a latched fault can be (R223): the conditions of the table, read from `info`. -/
def LatchOk (f : FaultRecord) : Prop :=
  match f.kind with
  | .outOfBounds => f.info ≤ 0xFFFF ∧ (f.info % 2 = 1 ∨ f.info > 0xFFE)
  | .stackOverflow => f.info % 2 = 0 ∧ f.info ≤ 0xFFE
  | .stackUnderflow => f.info % 2 = 0 ∧ f.info ≤ 0xFFE
  | .unimplementedOpcode => f.info ≤ 0xFFFF ∧ wellFormedWord (BitVec.ofNat 16 f.info) = false
  | .romTooLarge => f.info > Config.romMax
  | .operandOutOfRange => 16 ≤ f.info ∧ f.info ≤ 0xFF

/-- The invariant of the machine: memory is in its canonical form; PC is at most 0x10FE, so it never wraps (R23); every
occupied stack entry is an even address of at most 0x1000 (R111); a latched fault is one the table of R223 allows. -/
structure Inv (s : State) : Prop where
  memWf : s.mem.wf = true
  pcBound : s.pc.toNat ≤ 0x10FE
  returnAddresses : ∀ j : Fin 16, j.val < s.sp.val → s.stack[j].toNat % 2 = 0 ∧ s.stack[j].toNat ≤ 0x1000
  latchOk : ∀ f : FaultRecord, s.fault = some f → LatchOk f

/-- A state of a run that no fault has ended: "A faulted state is never a final state of a correct run" (R231). -/
def Unfaulted (s : State) : Prop := s.fault = none

/-! ## Runs the host may drive (R240, R241, R263) -/

/-- The states reached by a host that keeps R241, with whether `LoadRom` is still allowed (once, after `Reset` and before the
first `Step`, R264). The events come in any order and number (R7, R236). -/
inductive HostRun : Bool → State → Prop where
  | start : HostRun true State.reset
  | reset {b : Bool} {s : State} : HostRun b s → HostRun true (hostReset s)
  | loadRom {s : State} (bytes : List Byte) : HostRun true s → HostRun false (hostLoadRom bytes s)
  | tick {b : Bool} {s : State} : HostRun b s → HostRun b (hostTick s)
  | setKey {b : Bool} {s : State} (k : Fin 16) (pressed : Bool) : HostRun b s → HostRun b (hostSetKey k pressed s)
  | step {b : Bool} {s t : State} : HostRun b s → step s = .next t → HostRun false t

/-- The end-of-run convention of R247 (a convention of the spec, D30): no fault latched, and PC at a `1nnn` that jumps to
itself. -/
def Ended (s : State) : Prop :=
  s.fault = none ∧ s.pc.toNat % 2 = 0 ∧ s.pc.toNat ≤ 0xFFE ∧
    wordOfBytes (s.mem.read s.pc.toNat) (s.mem.read (s.pc.toNat + 1)) = 0x1000 ||| s.pc

/-! ## Encodings (R86) -/

/-- A pattern of the opcode table, as a rule of an instruction states it: every word with these bits under this mask decodes to
the instruction with these operands. -/
def EncodedAs (pattern mask : Opcode) (i : Opcode → Instr) : Prop :=
  ∀ op : Opcode, op &&& mask = pattern → decode op = .instr (i op)

/-! ## Sequences of instructions -/

/-- Execute instructions one after the other. -/
def execAll : List Instr → State → Result
  | [], s => .next s
  | i :: rest, s =>
    match exec i s with
    | .next t => execAll rest t
    | .fault f => .fault f
    | .refused r => .refused r

/-! ## Which instructions write what (R21, R167, R50, R27) -/

/-- The six instructions that write VF as a flag (R21). -/
def writesFlag : Instr → Bool
  | .addReg _ _ | .sub _ _ | .shr _ _ | .subn _ _ | .shl _ _ | .drw _ _ _ => true
  | _ => false

/-- Whether an instruction names the register as its destination: the x of 6xkk, 7xkk, 8xy0 to 8xy7, 8xyE, Cxkk, Fx07 and
Fx0A, and V0 to Vx of Fx65. -/
def hasDestination (i : Instr) (r : Reg) : Bool :=
  match i with
  | .ldImm x _ | .addImm x _ | .ldReg x _ | .or x _ | .and x _ | .xor x _ | .addReg x _ | .sub x _ | .shr x _
  | .subn x _ | .shl x _ | .rnd x _ | .ldVxDt x | .ldVxK x => r == x
  | .ldVxMem x => decide (r ≤ x)
  | _ => false

/-! ## A sprite draw, cell by cell (R184) -/

/-- The sprite bit that `DRW Vx, Vy, n` puts on a cell: with `dr` and `dc` the distances (mod 32, mod 64) of the cell from the
start coordinates, bit `7 - dc` of `mem[I + dr]` when `dr < n` and `dc < 8`, else 0 (R181 read the other way, R184). -/
def spritePixel (s : State) (x y : Reg) (n : Fin 16) (row : Fin 32) (col : Fin 64) : Bool :=
  let dr := (row.val + (32 - (s.getV y).toNat % 32)) % 32
  let dc := (col.val + (64 - (s.getV x).toNat % 64)) % 64
  decide (dr < n.val) && decide (dc < 8) && (s.mem.read (s.i.toNat + dr)).getLsbD (7 - dc)

/-! ## What a program cannot observe (R24, R208, R278) -/

/-- Two states agree on everything but the sound timer and the stack entries at and above SP. -/
structure AgreeVisible (s t : State) : Prop where
  v : t.v = s.v
  i : t.i = s.i
  pc : t.pc = s.pc
  sp : t.sp = s.sp
  entries : ∀ j : Fin 16, j.val < s.sp.val → t.stack[j] = s.stack[j]
  dt : t.dt = s.dt
  fb : t.fb = s.fb
  key : t.key = s.key
  mem : t.mem = s.mem
  fault : t.fault = s.fault
  draws : t.draws = s.draws

end Sys2Proof.Safety
end

