-- ==== Sys2Proof/Certificates/Slice0/Obligations.lean ====
section
/-! DEFINITION. The statements for the provers, from the numbered rules of spec/. Each docstring names the rules; where a rule
rests on a decision of the spec (D<n>) the docstring says so and names the assumption log's entry. -/

open Sys2Proof Sys2Proof.Machine Sys2Proof.Safety

/-! ## Encoding -/

/-- R81, R84, R86: the decoder reads back every instruction from the encoder's word and from its two bytes, with every operand
at every value, and leaves the bytes that follow. -/
def Obligations.DecodeReadsEveryEncodedInstruction : Prop :=
  ∀ (i : Instr) (rest : List Byte),
    decode (encode i) = .instr i ∧ decodeBytes (encodeBytes i ++ rest) = .instr i rest

/-- R84, R90: a word has one reading: an instruction the decoder answers is encoded by that very word, so no bit is dropped. -/
def Obligations.EncodeRestoresEveryDecodedWord : Prop :=
  ∀ (op : Opcode) (i : Instr), decode op = .instr i → encode i = op

/-- R84, R88 (with D2, D3, D4: log 8, 9): the illegal words are exactly those of the table of R88, each is reported as itself,
and every other word is an instruction. -/
def Obligations.IllegalWordsAreExactlyTheListed : Prop :=
  ∀ op : Opcode,
    (decode op = .illegal op ↔
      (op.toNat / 0x1000 = 0x0 ∧ op ≠ 0x00E0 ∧ op ≠ 0x00EE) ∨
      (op.toNat / 0x1000 = 0x5 ∧ op.toNat % 0x10 ≠ 0) ∨
      (op.toNat / 0x1000 = 0x8 ∧ op.toNat % 0x10 ∈ [0x8, 0x9, 0xA, 0xB, 0xC, 0xD, 0xF]) ∨
      (op.toNat / 0x1000 = 0x9 ∧ op.toNat % 0x10 ≠ 0) ∨
      (op.toNat / 0x1000 = 0xE ∧ op.toNat % 0x100 ∉ [0x9E, 0xA1]) ∨
      (op.toNat / 0x1000 = 0xF ∧
        op.toNat % 0x100 ∉ [0x07, 0x0A, 0x15, 0x18, 0x1E, 0x29, 0x33, 0x55, 0x65])) ∧
    (decode op = .illegal op ∨ ∃ i : Instr, decode op = .instr i)

/-- R84, R86: no word is selected by two rows of the opcode table, a word is an instruction exactly when a row selects it, and
the row that selects it is the row of the instruction the decoder answers. -/
def Obligations.OpcodeRowsAreDisjointAndDecodeFollowsThem : Prop :=
  opcodeTable.Pairwise (fun r q => ∀ op : Opcode, ¬ (r.selects op = true ∧ q.selects op = true)) ∧
  ∀ op : Opcode,
    (wellFormedWord op = true ↔ ∃ i : Instr, decode op = .instr i) ∧
    ∀ i : Instr, decode op = .instr i → (rowOf i).selects op = true

/-- Words written out in the spec's own examples and the instructions they stand for (R86, R113, R116 to R118, R143, R161,
R162, R164 to R166, R203, R205, R206; 95_test_vectors.md X15 to X17). -/
def Obligations.SpecExampleWordsDecode : Prop :=
  decode 0x00E0 = .instr .cls ∧ decode 0x00EE = .instr .ret ∧ decode 0x1204 = .instr (.jp 0x204) ∧
  decode 0x220A = .instr (.call 0x20A) ∧ decode 0x4311 = .instr (.sneImm 3 0x11) ∧
  decode 0x5120 = .instr (.seReg 1 2) ∧ decode 0x600A = .instr (.ldImm 0 0x0A) ∧
  decode 0x8014 = .instr (.addReg 0 1) ∧ decode 0x8AB6 = .instr (.shr 0xA 0xB) ∧
  decode 0x9120 = .instr (.sneReg 1 2) ∧ decode 0xB300 = .instr (.jpV0 0x300) ∧
  decode 0xC30F = .instr (.rnd 3 0x0F) ∧ decode 0xD12F = .instr (.drw 1 2 15) ∧
  decode 0xE19E = .instr (.skp 1) ∧ decode 0xF10A = .instr (.ldVxK 1) ∧ decode 0xF207 = .instr (.ldVxDt 2) ∧
  decode 0xF21E = .instr (.addI 2) ∧ decode 0xF429 = .instr (.ldF 4) ∧ decode 0xF033 = .instr (.ldB 0) ∧
  decode 0xF155 = .instr (.ldMemVx 1) ∧ decode 0xFF65 = .instr (.ldVxMem 15) ∧
  decode 0x0123 = .illegal 0x0123 ∧ decode 0x5121 = .illegal 0x5121 ∧ decode 0x812F = .illegal 0x812F

/-! ## The step and its faults -/

/-- R220, R53: with the latch clear and an even PC of at most 0xFFE, a step is exactly the execution of the instruction that
the big-endian word at PC decodes to; the step adds nothing around it (each instruction sets PC itself). -/
def Obligations.StepRunsTheDecodedInstruction : Prop :=
  ∀ (s : State) (i : Instr), s.fault = none → s.pc.toNat % 2 = 0 → s.pc.toNat ≤ 0xFFE →
    decode (s.mem.read s.pc.toNat ++ s.mem.read (s.pc.toNat + 1)) = .instr i → step s = exec i s

/-- R53, R227, R230 (with D18, D19: log 22, 23): an odd PC or a PC above 0xFFE faults with OutOfBounds(pc), and at a valid PC an
illegal word faults with UnimplementedOpcode(op); only the latch changes. -/
def Obligations.FetchAndDecodeFaultsSetOnlyTheLatch : Prop :=
  ∀ s : State, s.fault = none →
    (s.pc.toNat % 2 = 1 ∨ s.pc.toNat > 0xFFE →
      step s = .next { s with fault := some ⟨.outOfBounds, s.pc.toNat⟩ }) ∧
    (∀ op : Opcode, s.pc.toNat % 2 = 0 → s.pc.toNat ≤ 0xFFE →
      s.mem.read s.pc.toNat ++ s.mem.read (s.pc.toNat + 1) = op → decode op = .illegal op →
      step s = .next { s with fault := some ⟨.unimplementedOpcode, op.toNat⟩ })

/-- R231 (D19: log 1, 23): while the latch is set every step changes nothing and reports the latched fault. -/
def Obligations.HaltedCoreChangesNothingAndReportsTheLatch : Prop :=
  ∀ (s : State) (f : FaultRecord), s.fault = some f → step s = .next s ∧ stepReport s s = .fault f

/-- R220, R221 and the end of 93_implementation_defined.md Part 1: no behaviour is stuck; every instruction and every step, in
every state, answers a next state. -/
def Obligations.EveryStepAndInstructionAnswersANextState : Prop :=
  (∀ s : State, ∃ t : State, step s = .next t) ∧ ∀ (i : Instr) (s : State), ∃ t : State, exec i s = .next t

/-- R222, R223, R228 (D19: log 23): a step that faults changes the latch alone, reports the fault, and never latches RomTooLarge
or an info of more than 16 bits. -/
def Obligations.FaultingStepChangesOnlyTheLatch : Prop :=
  ∀ (s t : State) (f : FaultRecord), s.fault = none → step s = .next t → t.fault = some f →
    t = { s with fault := some f } ∧ stepReport s t = .fault f ∧ f.kind ≠ .romTooLarge ∧ f.info ≤ 0xFFFF

/-- R23, R55, R111, R223: every step keeps the invariant: memory canonical, PC at most 0x10FE, occupied stack entries even and at
most 0x1000, and a latched fault one that the table of R223 allows. -/
def Obligations.EveryStepKeepsTheInvariant : Prop :=
  ∀ s t : State, Inv s → step s = .next t → Inv t

/-- R34, R260: the invariant holds after reset. -/
def Obligations.InvariantHoldsAtReset : Prop := Inv State.reset

/-- R7, R240, R241: the invariant holds in every state that a host that keeps R241 can reach, with the events in any order. -/
def Obligations.InvariantHoldsInEveryHostRun : Prop :=
  ∀ (b : Bool) (s : State), HostRun b s → Inv s

/-- R34, R260, R262 (with D13, D21: log 3, 5, 6; the source itself gives PC and the display): what `Reset` leaves, from any state,
the font table of R58 included. The stack entries are unspecified and not stated. -/
def Obligations.ResetLeavesTheListedValues : Prop :=
  State.reset = hostReset State.reset ∧
  ∀ s : State,
    (hostReset s).pc = 0x0200 ∧ (∀ (row : Fin 32) (col : Fin 64), cell (hostReset s).fb row col = false) ∧
    (∀ r : Reg, (hostReset s).getV r = 0x00) ∧ (hostReset s).i = 0x0000 ∧ (hostReset s).sp.val = 0 ∧
    (hostReset s).dt = 0x00 ∧ (hostReset s).st = 0x00 ∧ (∀ k : Fin 16, (hostReset s).isPressed k = false) ∧
    (hostReset s).fault = none ∧
    (hostReset s).mem.readRun 0 80 =
      [0xF0, 0x90, 0x90, 0x90, 0xF0, 0x20, 0x60, 0x20, 0x20, 0x70, 0xF0, 0x10, 0xF0, 0x80, 0xF0,
       0xF0, 0x10, 0xF0, 0x10, 0xF0, 0x90, 0x90, 0xF0, 0x10, 0x10, 0xF0, 0x80, 0xF0, 0x10, 0xF0] ++
      [0xF0, 0x80, 0xF0, 0x90, 0xF0, 0xF0, 0x10, 0x20, 0x40, 0x40, 0xF0, 0x90, 0xF0, 0x90, 0xF0,
       0xF0, 0x90, 0xF0, 0x10, 0xF0, 0xF0, 0x90, 0xF0, 0x90, 0x90, 0xE0, 0x90, 0xE0, 0x90, 0xE0] ++
      [0xF0, 0x80, 0x80, 0x80, 0xF0, 0xE0, 0x90, 0x90, 0x90, 0xE0, 0xF0, 0x80, 0xF0, 0x80, 0xF0,
       0xF0, 0x80, 0xF0, 0x80, 0x80] ∧
    (∀ a : Nat, 80 ≤ a → (hostReset s).mem.read a = 0x00)

/-- R205, R221, R31 (D16, D34: log 20, 31): a step at an Fx0A with no key pressed changes nothing and reports Blocked; and a step
reports Blocked only when the latch is clear, PC is at an Fx0A, no key is pressed, and it changes nothing. -/
def Obligations.BlockedStepsAreExactlyWaitsWithNoKey : Prop :=
  (∀ (s : State) (x : Reg), s.fault = none → s.pc.toNat % 2 = 0 → s.pc.toNat ≤ 0xFFE →
    decode (s.mem.read s.pc.toNat ++ s.mem.read (s.pc.toNat + 1)) = .instr (.ldVxK x) →
    (∀ k : Fin 16, s.isPressed k = false) → step s = .next s ∧ stepReport s s = .blocked) ∧
  (∀ s t : State, step s = .next t → stepReport s t = .blocked →
    t = s ∧ s.fault = none ∧ s.pc.toNat % 2 = 0 ∧ s.pc.toNat ≤ 0xFFE ∧
      (∃ x : Reg, decode (s.mem.read s.pc.toNat ++ s.mem.read (s.pc.toNat + 1)) = .instr (.ldVxK x)) ∧
      ∀ k : Fin 16, s.isPressed k = false)

/-! ## Control transfer -/

/-- R114, R110: 1nnn sets PC to the zero-extended nnn, unchecked, and changes nothing else. -/
def Obligations.JumpSetsPcToTheTarget : Prop :=
  ∀ (nnn : BitVec 12) (s : State),
    ∃ t : State, exec (.jp nnn) s = .next t ∧ t.pc.toNat = nnn.toNat ∧ OnlyChanges [.pc] s t

/-- R112, R24 (D17: log 21): with at most fifteen entries occupied, 2nnn writes pc + 2 to entry SP, increments SP and jumps. -/
def Obligations.CallPushesTheReturnAddressAndJumps : Prop :=
  ∀ (nnn : BitVec 12) (s : State), s.sp.val ≤ 15 →
    ∃ t : State, exec (.call nnn) s = .next t ∧ t.pc.toNat = nnn.toNat ∧ t.sp.val = s.sp.val + 1 ∧
      (∀ j : Fin 16, t.stack[j] = if j.val = s.sp.val then s.pc + 2 else s.stack[j]) ∧
      OnlyChanges [.pc, .sp, .stack] s t

/-- R111, R278 (D17: log 21): with an entry occupied, 00EE decrements SP and sets PC to the released entry, adding nothing; the
entry stays in its place. -/
def Obligations.ReturnPopsTheLastReturnAddress : Prop :=
  ∀ (s : State) (j : Fin 16), s.sp.val = j.val + 1 →
    ∃ t : State, exec .ret s = .next t ∧ t.pc = s.stack[j] ∧ t.sp.val = j.val ∧ OnlyChanges [.pc, .sp] s t

/-- R25, R111, R112, R222 (D17, D19: log 21, 23): the seventeenth nested call and a return with no call set the latch, with the PC
of the instruction as info, and change nothing else. -/
def Obligations.StackFaultsKeepTheInstructionAddress : Prop :=
  ∀ (nnn : BitVec 12) (s : State),
    (s.sp.val = 16 → exec (.call nnn) s = .next { s with fault := some ⟨.stackOverflow, s.pc.toNat⟩ }) ∧
    (s.sp.val = 0 → exec .ret s = .next { s with fault := some ⟨.stackUnderflow, s.pc.toNat⟩ })

/-- R113 (D31: log 30): Bnnn sets PC to nnn + V[0], not reduced, and changes nothing else. -/
def Obligations.IndexedJumpAddsV0Unreduced : Prop :=
  ∀ (nnn : BitVec 12) (s : State),
    ∃ t : State, exec (.jpV0 nnn) s = .next t ∧ t.pc.toNat = nnn.toNat + (s.getV 0).toNat ∧ OnlyChanges [.pc] s t

/-- R115, R116: 3xkk and 4xkk add 4 to PC when V[x] equals, or differs from, kk, else 2, and change nothing else. -/
def Obligations.SkipsOnImmediateCompareAllEightBits : Prop :=
  EncodedAs 0x3000 0xF000 (fun op => .seImm (fieldX op) (fieldKk op)) ∧
  EncodedAs 0x4000 0xF000 (fun op => .sneImm (fieldX op) (fieldKk op)) ∧
  ∀ (x : Reg) (kk : Byte) (s : State),
    (∃ t : State, exec (.seImm x kk) s = .next t ∧
      t.pc = (if (s.getV x).toNat = kk.toNat then s.pc + 4 else s.pc + 2) ∧ OnlyChanges [.pc] s t) ∧
    (∃ t : State, exec (.sneImm x kk) s = .next t ∧
      t.pc = (if (s.getV x).toNat ≠ kk.toNat then s.pc + 4 else s.pc + 2) ∧ OnlyChanges [.pc] s t)

/-- R117, R118, R110: 5xy0 and 9xy0 add 4 to PC when V[x] equals, or differs from, V[y], else 2, and change nothing else; with
x = y the first always skips and the second never does. -/
def Obligations.SkipsOnRegisterCompareBothWays : Prop :=
  ∀ (x y : Reg) (s : State),
    (∃ t : State, exec (.seReg x y) s = .next t ∧
      t.pc = (if (s.getV x).toNat = (s.getV y).toNat then s.pc + 4 else s.pc + 2) ∧ OnlyChanges [.pc] s t) ∧
    (∃ t : State, exec (.sneReg x y) s = .next t ∧
      t.pc = (if (s.getV x).toNat ≠ (s.getV y).toNat then s.pc + 4 else s.pc + 2) ∧ OnlyChanges [.pc] s t) ∧
    (∃ t : State, exec (.seReg x x) s = .next t ∧ t.pc = s.pc + 4) ∧
    (∃ t : State, exec (.sneReg x x) s = .next t ∧ t.pc = s.pc + 2)

/-- R111, R112, the stack discipline of 95_test_vectors.md S8 (D17: log 21): N calls followed by N returns, if the stack has room,
come back to the address after the first call with SP as before and the occupied entries unchanged, and from an empty stack
one more return is a StackUnderflow. -/
def Obligations.CallsThenReturnsRestoreTheCaller : Prop :=
  ∀ (targets : List (BitVec 12)) (s : State), s.sp.val + targets.length ≤ 16 →
    ∃ t : State, execAll (targets.map Instr.call ++ List.replicate targets.length Instr.ret) s = .next t ∧
      t.pc = (if targets = [] then s.pc else s.pc + 2) ∧ t.sp = s.sp ∧
      (∀ j : Fin 16, j.val < s.sp.val → t.stack[j] = s.stack[j]) ∧
      OnlyChanges [.pc, .stack] s t ∧
      (s.sp.val = 0 → exec .ret t = .next { t with fault := some ⟨.stackUnderflow, t.pc.toNat⟩ })

/-! ## Load, arithmetic, logic, shift, random -/

/-- R132: 6xkk loads kk into V[x] (VF too, as an ordinary register) and changes nothing else but PC. -/
def Obligations.LoadImmediateWritesOneRegister : Prop :=
  EncodedAs 0x6000 0xF000 (fun op => .ldImm (fieldX op) (fieldKk op)) ∧
  ∀ (x : Reg) (kk : Byte) (s : State),
    ∃ t : State, exec (.ldImm x kk) s = .next t ∧ t.getV x = kk ∧ WritesOnlyV [x] s t

/-- R133: 7xkk adds modulo 256 and touches no flag; and 6xkk then 7xkk leaves (kk1 + kk2) mod 256 in V[x]. -/
def Obligations.AddImmediateWrapsAndTouchesNoFlag : Prop :=
  EncodedAs 0x7000 0xF000 (fun op => .addImm (fieldX op) (fieldKk op)) ∧
  ∀ (x : Reg) (kk : Byte) (s : State),
    (∃ t : State, exec (.addImm x kk) s = .next t ∧
      (t.getV x).toNat = ((s.getV x).toNat + kk.toNat) % 256 ∧ WritesOnlyV [x] s t) ∧
    ∀ kk1 : Byte, ∃ t : State, execAll [.ldImm x kk1, .addImm x kk] s = .next t ∧
      (t.getV x).toNat = (kk1.toNat + kk.toNat) % 256

/-- R134: 8xy0 copies V[y] to V[x] and changes nothing else but PC. -/
def Obligations.CopyRegisterWritesOneRegister : Prop :=
  ∀ (x y : Reg) (s : State),
    ∃ t : State, exec (.ldReg x y) s = .next t ∧ t.getV x = s.getV y ∧ WritesOnlyV [x] s t

/-- R135, R136, R137 (D33: log 37): bitwise OR, AND and XOR of V[x] and V[y] into V[x]; VF is not touched unless x = F. -/
def Obligations.LogicOperationsActBitwiseAndLeaveVf : Prop :=
  ∀ (x y : Reg) (s : State),
    (∃ t : State, exec (.or x y) s = .next t ∧ WritesOnlyV [x] s t ∧
      ∀ b < 8, (t.getV x).getLsbD b = ((s.getV x).getLsbD b || (s.getV y).getLsbD b)) ∧
    (∃ t : State, exec (.and x y) s = .next t ∧ WritesOnlyV [x] s t ∧
      ∀ b < 8, (t.getV x).getLsbD b = ((s.getV x).getLsbD b && (s.getV y).getLsbD b)) ∧
    (∃ t : State, exec (.xor x y) s = .next t ∧ WritesOnlyV [x] s t ∧
      ∀ b < 8, (t.getV x).getLsbD b = ((s.getV x).getLsbD b ^^ (s.getV y).getLsbD b))

/-- R138, R130, R131 (x = F: D7, log 12): 8xy4 leaves the low 8 bits of the sum in V[x] and the carry in VF; with x = F the carry
alone is left. -/
def Obligations.AddSetsCarryInVf : Prop :=
  ∀ (x y : Reg) (s : State),
    ∃ t : State, exec (.addReg x y) s = .next t ∧ WritesOnlyV [x, vf] s t ∧
      (x ≠ vf → (t.getV x).toNat = ((s.getV x).toNat + (s.getV y).toNat) % 256) ∧
      (t.getV vf).toNat = (if (s.getV x).toNat + (s.getV y).toNat > 255 then 1 else 0)

/-- R139, R131 (D7, D8: log 12, 13): 8xy5 leaves V[x] - V[y] modulo 256 in V[x] and 1 in VF exactly when V[x] > V[y]. -/
def Obligations.SubtractSetsStrictGreaterInVf : Prop :=
  ∀ (x y : Reg) (s : State),
    ∃ t : State, exec (.sub x y) s = .next t ∧ WritesOnlyV [x, vf] s t ∧
      (x ≠ vf → (t.getV x).toNat = ((s.getV x).toNat + 256 - (s.getV y).toNat) % 256) ∧
      (t.getV vf).toNat = (if (s.getV x).toNat > (s.getV y).toNat then 1 else 0)

/-- R141, R131 (D7, D8: log 12, 13): 8xy7 leaves V[y] - V[x] modulo 256 in V[x] and 1 in VF exactly when V[y] > V[x]. -/
def Obligations.ReverseSubtractSetsStrictGreaterInVf : Prop :=
  ∀ (x y : Reg) (s : State),
    ∃ t : State, exec (.subn x y) s = .next t ∧ WritesOnlyV [x, vf] s t ∧
      (x ≠ vf → (t.getV x).toNat = ((s.getV y).toNat + 256 - (s.getV x).toNat) % 256) ∧
      (t.getV vf).toNat = (if (s.getV y).toNat > (s.getV x).toNat then 1 else 0)

/-- R140, R142, R131 (D6, D7: log 11, 12): 8xy6 halves V[x], 8xyE doubles it modulo 256, and VF is the bit shifted out; the y field
has no effect. -/
def Obligations.ShiftsMoveOneBitIntoVf : Prop :=
  ∀ (x y : Reg) (s : State),
    (∃ t : State, exec (.shr x y) s = .next t ∧ WritesOnlyV [x, vf] s t ∧
      (x ≠ vf → (t.getV x).toNat = (s.getV x).toNat / 2) ∧ (t.getV vf).toNat = (s.getV x).toNat % 2) ∧
    (∃ t : State, exec (.shl x y) s = .next t ∧ WritesOnlyV [x, vf] s t ∧
      (x ≠ vf → (t.getV x).toNat = (s.getV x).toNat * 2 % 256) ∧ (t.getV vf).toNat = (s.getV x).toNat / 128)

/-- R143 (D23: log 2): Cxkk writes `rand & kk` to V[x] and uses up one random byte. `Config.freeByte` is a free value: the
statement holds for every value of it. -/
def Obligations.RandomByteIsMaskedByTheImmediate : Prop :=
  ∀ (x : Reg) (kk : Byte) (s : State),
    ∃ t : State, exec (.rnd x kk) s = .next t ∧ t.draws = s.draws + 1 ∧ t.pc = s.pc + 2 ∧
      (∀ b < 8, (t.getV x).getLsbD b = ((Config.freeByte s.draws).getLsbD b && kk.getLsbD b)) ∧
      (∀ r : Reg, r ≠ x → t.getV r = s.getV r) ∧ OnlyChanges [.v, .pc, .draws] s t

/-- R21, R8: an instruction changes a general register only if it names it as its destination or is one of the six that write VF
as a flag, and the flag those six leave is 0 or 1. -/
def Obligations.RegistersChangeOnlyByDestinationOrFlag : Prop :=
  ∀ (i : Instr) (s t : State), exec i s = .next t →
    (∀ r : Reg, t.getV r ≠ s.getV r → hasDestination i r = true ∨ (r = vf ∧ writesFlag i = true)) ∧
    (writesFlag i = true → t.pc ≠ s.pc → (t.getV vf).toNat = 0 ∨ (t.getV vf).toNat = 1)

/-! ## Index register and memory -/

/-- R160: Annn loads the zero-extended nnn, a valid address, into I and changes nothing else but PC. -/
def Obligations.LoadIndexZeroExtends : Prop :=
  EncodedAs 0xA000 0xF000 (fun op => .ldI (fieldNnn op)) ∧
  ∀ (nnn : BitVec 12) (s : State),
    ∃ t : State, exec (.ldI nnn) s = .next t ∧ t.i.toNat = nnn.toNat ∧ t.i.toNat ≤ 0xFFF ∧ t.pc = s.pc + 2 ∧
      OnlyChanges [.i, .pc] s t

/-- R161 (D9: log 14): Fx1E adds V[x] to I modulo 65536, with no flag and no fault. -/
def Obligations.AddIndexWrapsAtSixteenBits : Prop :=
  ∀ (x : Reg) (s : State),
    ∃ t : State, exec (.addI x) s = .next t ∧ t.i.toNat = (s.i.toNat + (s.getV x).toNat) % 65536 ∧ t.pc = s.pc + 2 ∧
      OnlyChanges [.i, .pc] s t

/-- R162 (D13, D14: log 6, 18): Fx29 with a digit of at most 15 points I at its glyph, 5 bytes a glyph from address 0. -/
def Obligations.FontAddressIsFiveTimesTheDigit : Prop :=
  ∀ (x : Reg) (s : State), (s.getV x).toNat ≤ 15 →
    ∃ t : State, exec (.ldF x) s = .next t ∧ t.i.toNat = 5 * (s.getV x).toNat ∧ t.pc = s.pc + 2 ∧
      OnlyChanges [.i, .pc] s t

/-- R164, R167 (D11: log 16): Fx33 with I at most 0xFFD stores the hundreds, tens and ones digit of V[x] at I, I + 1, I + 2, no
other byte changes, and memory stays canonical. -/
def Obligations.BcdStoresThreeDigits : Prop :=
  ∀ (x : Reg) (s : State), s.mem.wf = true → s.i.toNat ≤ 0xFFD →
    ∃ t : State, exec (.ldB x) s = .next t ∧
      (t.mem.read s.i.toNat).toNat = (s.getV x).toNat / 100 ∧
      (t.mem.read (s.i.toNat + 1)).toNat = (s.getV x).toNat / 10 % 10 ∧
      (t.mem.read (s.i.toNat + 2)).toNat = (s.getV x).toNat % 10 ∧
      (∀ a : Nat, a < s.i.toNat ∨ s.i.toNat + 2 < a → t.mem.read a = s.mem.read a) ∧
      t.mem.wf = true ∧ t.pc = s.pc + 2 ∧ OnlyChanges [.mem, .pc] s t

/-- R165, R167 (D11: log 16): Fx55 with I + x at most 0xFFF stores V[k] at I + k for k from 0 to x, and no other byte changes. -/
def Obligations.StoreRegistersWritesTheInclusiveRange : Prop :=
  ∀ (x : Reg) (s : State), s.mem.wf = true → s.i.toNat + x.val ≤ 0xFFF →
    ∃ t : State, exec (.ldMemVx x) s = .next t ∧
      (∀ k : Reg, k ≤ x → t.mem.read (s.i.toNat + k.val) = s.getV k) ∧
      (∀ a : Nat, a < s.i.toNat ∨ s.i.toNat + x.val < a → t.mem.read a = s.mem.read a) ∧
      t.mem.wf = true ∧ t.pc = s.pc + 2 ∧ OnlyChanges [.mem, .pc] s t

/-- R166, R167 (D11: log 16): Fx65 with I + x at most 0xFFF loads V[k] from I + k for k from 0 to x; the registers above x are
untouched. -/
def Obligations.LoadRegistersReadsTheInclusiveRange : Prop :=
  ∀ (x : Reg) (s : State), s.i.toNat + x.val ≤ 0xFFF →
    ∃ t : State, exec (.ldVxMem x) s = .next t ∧
      (∀ k : Reg, k ≤ x → t.getV k = s.mem.read (s.i.toNat + k.val)) ∧
      (∀ k : Reg, x < k → t.getV k = s.getV k) ∧ t.pc = s.pc + 2 ∧ OnlyChanges [.v, .pc] s t

/-- R55, R54, R222 (D10, D19, D20: log 15, 23, 24): an access that reaches past 0xFFF sets the latch with max(I, 0x1000) and makes
none of its effects. -/
def Obligations.AccessPastTheEndFaultsWithNoEffect : Prop :=
  ∀ (x y : Reg) (n : Fin 16) (s : State),
    (s.i.toNat + 2 > 0xFFF →
      exec (.ldB x) s = .next { s with fault := some ⟨.outOfBounds, max s.i.toNat 0x1000⟩ }) ∧
    (s.i.toNat + x.val > 0xFFF →
      exec (.ldMemVx x) s = .next { s with fault := some ⟨.outOfBounds, max s.i.toNat 0x1000⟩ } ∧
      exec (.ldVxMem x) s = .next { s with fault := some ⟨.outOfBounds, max s.i.toNat 0x1000⟩ }) ∧
    (n.val > 0 → s.i.toNat + (n.val - 1) > 0xFFF →
      exec (.drw x y n) s = .next { s with fault := some ⟨.outOfBounds, max s.i.toNat 0x1000⟩ })

/-- R55, R51 (D19, D20: log 23, 24): the one check before an access agrees with the byte accesses one by one: it passes exactly
when every MemRead of the run answers, and it fails with the very fault of the first MemRead that does not. -/
def Obligations.RunCheckAgreesWithTheByteAccesses : Prop :=
  ∀ (i : Word) (count : Nat) (m : Memory),
    (runFault i count = none ↔ ∀ k < count, ∃ b : Byte, memRead m (i.toNat + k) = .ok b) ∧
    (∀ f : FaultRecord, runFault i count = some f ↔
      ∃ k < count, memRead m (i.toNat + k) = .error f ∧ ∀ j < k, ∃ b : Byte, memRead m (i.toNat + j) = .ok b)

/-- R51, R52, over memory in the model's canonical form (log 36: the model's choice, which the statement assumes before and
concludes after): MemRead and MemWrite above 0xFFF raise OutOfBounds(addr); from 0x000 to 0xFFF MemRead answers the byte there
and MemWrite makes the byte read back, leaves every other byte, and keeps the canonical form. -/
def Obligations.MemoryPrimitivesReadBackWhatWasWritten : Prop :=
  ∀ (m : Memory) (addr : Nat) (b : Byte), m.wf = true →
    (addr > 0xFFF → memRead m addr = .error ⟨.outOfBounds, addr⟩ ∧ memWrite m addr b = .error ⟨.outOfBounds, addr⟩) ∧
    (addr ≤ 0xFFF → memRead m addr = .ok (m.read addr) ∧
      ∃ m' : Memory, memWrite m addr b = .ok m' ∧ memRead m' addr = .ok b ∧
        (∀ a : Nat, a ≠ addr → m'.read a = m.read a) ∧ m'.wf = true)

/-- R8, R24, R26 to R28, R50, R167 (D11: log 16): each piece of state but PC, the general registers and the latch is changed only by
the instructions the spec names as its writers. -/
def Obligations.EachPieceOfStateHasItsWriters : Prop :=
  ∀ (i : Instr) (s t : State), exec i s = .next t →
    (t.i ≠ s.i → (∃ nnn, i = .ldI nnn) ∨ (∃ x, i = .addI x) ∨ ∃ x, i = .ldF x) ∧
    (t.mem ≠ s.mem → (∃ x, i = .ldB x) ∨ ∃ x, i = .ldMemVx x) ∧
    (t.fb ≠ s.fb → i = .cls ∨ ∃ x y n, i = .drw x y n) ∧
    (t.stack ≠ s.stack → ∃ nnn, i = .call nnn) ∧
    (t.sp ≠ s.sp → i = .ret ∨ ∃ nnn, i = .call nnn) ∧
    (t.dt ≠ s.dt → ∃ x, i = .ldDtVx x) ∧
    (t.st ≠ s.st → ∃ x, i = .ldStVx x) ∧
    (t.key ≠ s.key → ∃ x, i = .ldVxK x) ∧
    (t.draws ≠ s.draws → ∃ x kk, i = .rnd x kk)

/-- R63, R276 (D27: log 29): a word stored by Fx55 is what the next fetch at that address reads. -/
def Obligations.StoredWordIsFetchedAtOnce : Prop :=
  ∀ (x : Reg) (s : State), s.mem.wf = true → s.i.toNat % 2 = 0 → 1 ≤ x.val → s.i.toNat + x.val ≤ 0xFFF →
    ∃ t : State, exec (.ldMemVx x) s = .next t ∧ fetch { t with pc := s.i } = .ok (s.getV 0 ++ s.getV 1)

/-! ## Display -/

/-- R180: 00E0 clears all 2048 cells, touches no flag and changes nothing else but PC. -/
def Obligations.ClearDisplayClearsEveryCell : Prop :=
  EncodedAs 0x00E0 0xFFFF (fun _ => .cls) ∧
  ∀ s : State,
    ∃ t : State, exec .cls s = .next t ∧ (∀ (row : Fin 32) (col : Fin 64), cell t.fb row col = false) ∧
      t.pc = s.pc + 2 ∧ OnlyChanges [.fb, .pc] s t

/-- R181 to R184 (D12: log 17): Dxyn, whose sequential compositor goes bit by bit, does what a parallel one does: every cell is
XORed with the one sprite bit that falls on it, wrapping on both axes, VF is 1 exactly when a sprite 1 met a lit cell, else 0,
and I and memory are unchanged. -/
def Obligations.DrawEqualsTheParallelCompositor : Prop :=
  ∀ (x y : Reg) (n : Fin 16) (s : State), n.val = 0 ∨ s.i.toNat + (n.val - 1) ≤ 0xFFF →
    ∃ t : State, exec (.drw x y n) s = .next t ∧
      (∀ (row : Fin 32) (col : Fin 64), cell t.fb row col = (cell s.fb row col ^^ spritePixel s x y n row col)) ∧
      (t.getV vf).toNat ≤ 1 ∧
      ((t.getV vf).toNat = 1 ↔
        ∃ (row : Fin 32) (col : Fin 64), spritePixel s x y n row col = true ∧ cell s.fb row col = true) ∧
      (∀ r : Reg, r ≠ vf → t.getV r = s.getV r) ∧ t.pc = s.pc + 2 ∧ OnlyChanges [.fb, .v, .pc] s t

/-- R183: the collision of a draw is the OR over all its 8 x n positions of the sprite bit and the cell's value before the draw,
which is so exactly when some cell goes from 1 to 0; Dxyn, when it draws, delivers it once, as 1 or 0 in VF. -/
def Obligations.CollisionIsTheAggregateOfErasedCells : Prop :=
  (∀ (fb : Framebuffer) (sprite : List Byte) (x0 y0 : Nat), sprite.length ≤ 15 →
    ((draw fb sprite x0 y0).2 = true ↔
      ∃ (r : Nat) (hr : r < sprite.length), ∃ b < 8, sprite[r].getLsbD (7 - b) = true ∧
        cell fb (Fin.ofNat 32 (y0 + r)) (Fin.ofNat 64 (x0 + b)) = true) ∧
    ((draw fb sprite x0 y0).2 = true ↔
      ∃ (row : Fin 32) (col : Fin 64), cell fb row col = true ∧ cell (draw fb sprite x0 y0).1 row col = false)) ∧
  (∀ (x y : Reg) (n : Fin 16) (s t : State), exec (.drw x y n) s = .next t → t.pc ≠ s.pc →
    (t.getV vf).toNat ≤ 1 ∧
    ((t.getV vf).toNat = 1 ↔ ∃ (row : Fin 32) (col : Fin 64), cell s.fb row col = true ∧ cell t.fb row col = false))

/-- R185 (derived in the spec from R181 and R183; D12: log 17): two identical draws restore every cell, and the second reports
whether a sprite 1 met a cell that was unlit before the first. With x or y = F the coordinates of the two draws differ, so they
are not identical draws. -/
def Obligations.DrawingTwiceRestoresTheDisplay : Prop :=
  ∀ (x y : Reg) (n : Fin 16) (s : State), x ≠ vf → y ≠ vf → n.val = 0 ∨ s.i.toNat + (n.val - 1) ≤ 0xFFF →
    ∃ t : State, execAll [.drw x y n, .drw x y n] s = .next t ∧
      (∀ (row : Fin 32) (col : Fin 64), cell t.fb row col = cell s.fb row col) ∧
      ((t.getV vf).toNat = 1 ↔
        ∃ (row : Fin 32) (col : Fin 64), spritePixel s x y n row col = true ∧ cell s.fb row col = false)

/-! ## Keypad and timers -/

/-- R203, R204, R202 (D15: log 19): with a key index of at most 15, Ex9E skips when the key is pressed and ExA1 when it is not; the
press is not consumed. -/
def Obligations.KeySkipsReadTheKeyState : Prop :=
  ∀ (x : Reg) (k : Fin 16) (s : State), (s.getV x).toNat = k.val →
    (∃ t : State, exec (.skp x) s = .next t ∧
      t.pc = (if s.isPressed k = true then s.pc + 4 else s.pc + 2) ∧ OnlyChanges [.pc] s t) ∧
    (∃ t : State, exec (.sknp x) s = .next t ∧
      t.pc = (if s.isPressed k = false then s.pc + 4 else s.pc + 2) ∧ OnlyChanges [.pc] s t)

/-- R162, R203, R204, R229 (D14, D15, D19: log 18, 19, 23): Fx29, Ex9E and ExA1 with V[x] above 15 set the latch to
OperandOutOfRange(V[x]) and change nothing else. -/
def Obligations.OperandAboveFifteenFaults : Prop :=
  ∀ (x : Reg) (s : State), (s.getV x).toNat > 15 →
    exec (.skp x) s = .next { s with fault := some ⟨.operandOutOfRange, (s.getV x).toNat⟩ } ∧
    exec (.sknp x) s = .next { s with fault := some ⟨.operandOutOfRange, (s.getV x).toNat⟩ } ∧
    exec (.ldF x) s = .next { s with fault := some ⟨.operandOutOfRange, (s.getV x).toNat⟩ }

/-- R205 (D16: log 20): with a key pressed Fx0A writes the lowest pressed index to V[x], clears that key alone, and advances. -/
def Obligations.WaitForKeyTakesTheLowestPressedKey : Prop :=
  ∀ (x : Reg) (k : Fin 16) (s : State), s.isPressed k = true → (∀ j : Fin 16, j < k → s.isPressed j = false) →
    ∃ t : State, exec (.ldVxK x) s = .next t ∧ (t.getV x).toNat = k.val ∧ t.isPressed k = false ∧
      (∀ j : Fin 16, j ≠ k → t.isPressed j = s.isPressed j) ∧ (∀ r : Reg, r ≠ x → t.getV r = s.getV r) ∧
      t.pc = s.pc + 2 ∧ OnlyChanges [.v, .key, .pc] s t

/-- R206, R207, R208 (D5: log 10): Fx07 reads DT into V[x], Fx15 writes V[x] to DT, Fx18 writes V[x] to ST. -/
def Obligations.TimerMovesCopyOneByte : Prop :=
  ∀ (x : Reg) (s : State),
    (∃ t : State, exec (.ldVxDt x) s = .next t ∧ t.getV x = s.dt ∧ WritesOnlyV [x] s t) ∧
    (∃ t : State, exec (.ldDtVx x) s = .next t ∧ t.dt = s.getV x ∧ t.pc = s.pc + 2 ∧ OnlyChanges [.dt, .pc] s t) ∧
    (∃ t : State, exec (.ldStVx x) s = .next t ∧ t.st = s.getV x ∧ t.pc = s.pc + 2 ∧ OnlyChanges [.st, .pc] s t)

/-- R235, R26 (D22: log 25): a tick takes 1 from each nonzero timer, leaves a timer at 0, and changes nothing else, whatever the
core is doing; so after enough ticks a timer is 0. -/
def Obligations.TickCountsBothTimersDown : Prop :=
  ∀ s : State,
    (hostTick s).dt.toNat = s.dt.toNat - 1 ∧ (hostTick s).st.toNat = s.st.toNat - 1 ∧
    OnlyChanges [.dt, .st] s (hostTick s) ∧
    ∀ n : Nat, (hostTick^[n] s).dt.toNat = s.dt.toNat - n ∧ (hostTick^[n] s).st.toNat = s.st.toNat - n

/-- R201: SetKey sets the one key state and changes nothing else, also while the latch is set. -/
def Obligations.SetKeyChangesOneKey : Prop :=
  ∀ (k : Fin 16) (pressed : Bool) (s : State),
    (hostSetKey k pressed s).isPressed k = pressed ∧
    (∀ j : Fin 16, j ≠ k → (hostSetKey k pressed s).isPressed j = s.isPressed j) ∧
    OnlyChanges [.key] s (hostSetKey k pressed s)

/-! ## Load, end of a run, what cannot be observed -/

/-- R264, R265, R240 (D25: log 27): an image of at most 3584 bytes is copied verbatim to 0x200, nothing else changes and the host
gets ok; a longer one sets the latch to RomTooLarge(length), copies nothing, and the host gets that fault. -/
def Obligations.LoadRomCopiesAllOrNothing : Prop :=
  ∀ (bytes : List Byte) (s : State), s.mem.wf = true →
    (bytes.length ≤ 3584 →
      (∀ (k : Nat) (hk : k < bytes.length), (hostLoadRom bytes s).mem.read (0x200 + k) = bytes[k]) ∧
      (∀ a : Nat, a < 0x200 ∨ 0x200 + bytes.length ≤ a → (hostLoadRom bytes s).mem.read a = s.mem.read a) ∧
      (hostLoadRom bytes s).mem.wf = true ∧ OnlyChanges [.mem] s (hostLoadRom bytes s) ∧ loadReport bytes = .ok) ∧
    (bytes.length > 3584 → hostLoadRom bytes s = { s with fault := some ⟨.romTooLarge, bytes.length⟩ } ∧
      loadReport bytes = .fault ⟨.romTooLarge, bytes.length⟩)

/-- R247 (the spec's convention D30: log 34): in an ended state every later step leaves the whole state unchanged. -/
def Obligations.EndedStateIsAFixedPointOfStep : Prop :=
  ∀ s : State, Ended s → step s = .next s

/-- R24, R278, R208, R26: the sound timer and the stack entries at and above SP cannot be observed by a program: two states that
differ only in them step to states that differ only in them. -/
def Obligations.SoundTimerAndStaleEntriesAreUnobservable : Prop :=
  ∀ s s' t t' : State, AgreeVisible s s' → step s = .next t → step s' = .next t' → AgreeVisible t t'

/-- R242, R240 (D20: log 24): a fault is reported in two ways that agree: the fault that an event gives the host back is the fault
latched after it, and an event that gives none back leaves the latch clear. It is so for every event issued with the latch clear,
for `Step` and `Reset` also with the latch set; `Tick` and `SetKey` give nothing back and leave a set latch as it is. -/
def Obligations.ReportedFaultIsTheLatchedFault : Prop :=
  ∀ (e : Event) (s t : State), runEvent e s = .next t →
    (s.fault = none ∨ e = .step ∨ e = .reset → reportedFault (eventReport e s t) = t.fault) ∧
    (∀ (k : Fin 16) (pressed : Bool), e = .tick ∨ e = .setKey k pressed →
      eventReport e s t = .nothing ∧ t.fault = s.fault)
end

