-- ==== Sys2Proof/Laws/Encoding.lean ====
section
/-! SUPPORT. The fields of the encoder's formats (spec/30_encoding.md R81, R82), and what a row's mask leaves of a word. -/

namespace Sys2Proof

/-! ### Fields of a word -/

@[simp] theorem fieldG_encNnn (g : BitVec 4) (nnn : BitVec 12) :
    fieldG (encNnn g nnn) = g := by
  apply BitVec.eq_of_getLsbD_eq
  intro b hb
  simp only [fieldG, encNnn, BitVec.getLsbD_append, BitVec.getLsbD_extractLsb']
  interval_cases b <;> simp [-BitVec.getLsbD_eq_getElem]

@[simp] theorem fieldNnn_encNnn (g : BitVec 4) (nnn : BitVec 12) :
    fieldNnn (encNnn g nnn) = nnn := by
  apply BitVec.eq_of_getLsbD_eq
  intro b hb
  simp only [fieldNnn, encNnn, BitVec.getLsbD_append, BitVec.getLsbD_extractLsb']
  interval_cases b <;> simp [-BitVec.getLsbD_eq_getElem]

@[simp] theorem fieldG_encXkk (g : BitVec 4) (x : Reg) (kk : Byte) :
    fieldG (encXkk g x kk) = g := by
  apply BitVec.eq_of_getLsbD_eq
  intro b hb
  simp only [fieldG, encXkk, BitVec.getLsbD_append, BitVec.getLsbD_extractLsb']
  interval_cases b <;> simp [-BitVec.getLsbD_eq_getElem]

@[simp] theorem fieldX_encXkk (g : BitVec 4) (x : Reg) (kk : Byte) :
    fieldX (encXkk g x kk) = x := by
  have h : (encXkk g x kk).extractLsb' 8 4 = nibble x := by
    apply BitVec.eq_of_getLsbD_eq
    intro b hb
    simp only [encXkk, BitVec.getLsbD_append, BitVec.getLsbD_extractLsb']
    interval_cases b <;> simp [-BitVec.getLsbD_eq_getElem]
  rw [fieldX, h]
  rfl

@[simp] theorem fieldKk_encXkk (g : BitVec 4) (x : Reg) (kk : Byte) :
    fieldKk (encXkk g x kk) = kk := by
  apply BitVec.eq_of_getLsbD_eq
  intro b hb
  simp only [fieldKk, encXkk, BitVec.getLsbD_append, BitVec.getLsbD_extractLsb']
  interval_cases b <;> simp [-BitVec.getLsbD_eq_getElem]

@[simp] theorem fieldG_encXyn (g : BitVec 4) (x y : Reg) (n : BitVec 4) :
    fieldG (encXyn g x y n) = g := by
  apply BitVec.eq_of_getLsbD_eq
  intro b hb
  simp only [fieldG, encXyn, BitVec.getLsbD_append, BitVec.getLsbD_extractLsb']
  interval_cases b <;> simp [-BitVec.getLsbD_eq_getElem]

@[simp] theorem fieldX_encXyn (g : BitVec 4) (x y : Reg) (n : BitVec 4) :
    fieldX (encXyn g x y n) = x := by
  have h : (encXyn g x y n).extractLsb' 8 4 = nibble x := by
    apply BitVec.eq_of_getLsbD_eq
    intro b hb
    simp only [encXyn, BitVec.getLsbD_append, BitVec.getLsbD_extractLsb']
    interval_cases b <;> simp [-BitVec.getLsbD_eq_getElem]
  rw [fieldX, h]
  rfl

@[simp] theorem fieldY_encXyn (g : BitVec 4) (x y : Reg) (n : BitVec 4) :
    fieldY (encXyn g x y n) = y := by
  have h : (encXyn g x y n).extractLsb' 4 4 = nibble y := by
    apply BitVec.eq_of_getLsbD_eq
    intro b hb
    simp only [encXyn, BitVec.getLsbD_append, BitVec.getLsbD_extractLsb']
    interval_cases b <;> simp [-BitVec.getLsbD_eq_getElem]
  rw [fieldY, h]
  rfl

@[simp] theorem fieldN_encXyn (g : BitVec 4) (x y : Reg) (n : BitVec 4) :
    fieldN (encXyn g x y n) = n := by
  apply BitVec.eq_of_getLsbD_eq
  intro b hb
  simp only [fieldN, encXyn, BitVec.getLsbD_append, BitVec.getLsbD_extractLsb']
  interval_cases b <;> simp [-BitVec.getLsbD_eq_getElem]

/-! ### A word is put together again from its fields -/

theorem encNnn_fields (op : Opcode) : encNnn (fieldG op) (fieldNnn op) = op := by
  apply BitVec.eq_of_getLsbD_eq
  intro b hb
  simp only [encNnn, fieldG, fieldNnn, BitVec.getLsbD_append, BitVec.getLsbD_extractLsb']
  interval_cases b <;> simp [-BitVec.getLsbD_eq_getElem]

theorem encXkk_fields (op : Opcode) : encXkk (fieldG op) (fieldX op) (fieldKk op) = op := by
  have h : nibble (fieldX op) = op.extractLsb' 8 4 := rfl
  apply BitVec.eq_of_getLsbD_eq
  intro b hb
  simp only [encXkk, h, fieldG, fieldKk, BitVec.getLsbD_append, BitVec.getLsbD_extractLsb']
  interval_cases b <;> simp [-BitVec.getLsbD_eq_getElem]

theorem encXyn_fields (op : Opcode) : encXyn (fieldG op) (fieldX op) (fieldY op) (fieldN op) = op := by
  have hx : nibble (fieldX op) = op.extractLsb' 8 4 := rfl
  have hy : nibble (fieldY op) = op.extractLsb' 4 4 := rfl
  apply BitVec.eq_of_getLsbD_eq
  intro b hb
  simp only [encXyn, hx, hy, fieldG, fieldN, BitVec.getLsbD_append, BitVec.getLsbD_extractLsb']
  interval_cases b <;> simp [-BitVec.getLsbD_eq_getElem]

/-! ### Fields as numbers -/

theorem fieldG_toNat (op : Opcode) : (fieldG op).toNat = op.toNat / 0x1000 := by
  have := op.isLt
  simp only [fieldG, BitVec.extractLsb'_toNat, Nat.shiftRight_eq_div_pow]
  omega

theorem fieldN_toNat (op : Opcode) : (fieldN op).toNat = op.toNat % 0x10 := by
  simp [fieldN, BitVec.extractLsb'_toNat]

theorem fieldKk_toNat (op : Opcode) : (fieldKk op).toNat = op.toNat % 0x100 := by
  simp [fieldKk, BitVec.extractLsb'_toNat]

/-! ### What a mask leaves -/

theorem encNnn_and_group (g : BitVec 4) (nnn : BitVec 12) :
    encNnn g nnn &&& 0xF000 = encNnn g 0 := by
  apply BitVec.eq_of_getLsbD_eq
  intro b hb
  simp only [encNnn, BitVec.getLsbD_append, BitVec.getLsbD_and]
  interval_cases b <;> simp [-BitVec.getLsbD_eq_getElem]

theorem encXkk_and_group (g : BitVec 4) (x : Reg) (kk : Byte) :
    encXkk g x kk &&& 0xF000 = encXkk g 0 0 := by
  apply BitVec.eq_of_getLsbD_eq
  intro b hb
  simp only [encXkk, BitVec.getLsbD_append, BitVec.getLsbD_and]
  interval_cases b <;> simp [-BitVec.getLsbD_eq_getElem, nibble]

theorem encXkk_and_low (g : BitVec 4) (x : Reg) (kk : Byte) :
    encXkk g x kk &&& 0xF0FF = encXkk g 0 kk := by
  apply BitVec.eq_of_getLsbD_eq
  intro b hb
  simp only [encXkk, BitVec.getLsbD_append, BitVec.getLsbD_and]
  interval_cases b <;> simp [-BitVec.getLsbD_eq_getElem, nibble]

theorem encXyn_and_group (g : BitVec 4) (x y : Reg) (n : BitVec 4) :
    encXyn g x y n &&& 0xF000 = encXyn g 0 0 0 := by
  apply BitVec.eq_of_getLsbD_eq
  intro b hb
  simp only [encXyn, BitVec.getLsbD_append, BitVec.getLsbD_and]
  interval_cases b <;> simp [-BitVec.getLsbD_eq_getElem, nibble]

theorem encXyn_and_low (g : BitVec 4) (x y : Reg) (n : BitVec 4) :
    encXyn g x y n &&& 0xF00F = encXyn g 0 0 n := by
  apply BitVec.eq_of_getLsbD_eq
  intro b hb
  simp only [encXyn, BitVec.getLsbD_append, BitVec.getLsbD_and]
  interval_cases b <;> simp [-BitVec.getLsbD_eq_getElem, nibble]

/-- A word is put together again from its two bytes (R53). -/
@[simp] theorem wordOfBytes_bytes (op : Opcode) : wordOfBytes (op.extractLsb' 8 8) (op.extractLsb' 0 8) = op := by
  apply BitVec.eq_of_getLsbD_eq
  intro b hb
  simp only [wordOfBytes, BitVec.getLsbD_append, BitVec.getLsbD_extractLsb']
  interval_cases b <;> simp [-BitVec.getLsbD_eq_getElem]

end Sys2Proof
end

