-- ==== Sys2Proof/Laws/Memory.lean ====
section
/-! SUPPORT. Memory (spec/20_memory.md R51, R52): a read after a write, the bytes a run of writes leaves alone, and that
every memory operation keeps the canonical form. -/

namespace Sys2Proof.Machine

@[simp] theorem Memory.read_nil (a : Nat) : Memory.read [] a = resetByte a := rfl

/-- The canonical form of a list with a first entry. -/
theorem Memory.wf_cons (k : Nat) (v : Byte) (rest : Memory) :
    Memory.wf ((k, v) :: rest) = true ↔
      k < Config.memSize ∧ v ≠ resetByte k ∧ (∀ c ∈ rest, k < c.1) ∧ Memory.wf rest = true := by
  simp [Memory.wf, and_assoc]

/-- An address below every listed address reads as its reset byte. -/
theorem Memory.read_of_all_gt (m : Memory) (a : Nat) (h : ∀ c ∈ m, a < c.1) : Memory.read m a = resetByte a := by
  induction m with
  | nil => rfl
  | cons c rest ih =>
    obtain ⟨k, v⟩ := c
    have hk : a < k := h (k, v) List.mem_cons_self
    simp only [Memory.read, if_neg (Nat.ne_of_gt hk)]
    exact ih fun c hc => h c (List.mem_cons_of_mem _ hc)

/-- A write leaves every other address alone; this needs no canonical form. -/
theorem Memory.read_write_of_ne (m : Memory) (a a' : Nat) (b : Byte) (h : a' ≠ a) :
    Memory.read (Memory.write m a b) a' = Memory.read m a' := by
  induction m with
  | nil =>
    by_cases hb : b = resetByte a <;> simp [Memory.write, hb, Memory.read, Ne.symm h]
  | cons c rest ih =>
    obtain ⟨k, v⟩ := c
    by_cases h1 : k < a
    · simp [Memory.write, h1, Memory.read, ih]
    · by_cases h2 : k = a
      · subst h2
        by_cases hb : b = resetByte k <;> simp [Memory.write, hb, Memory.read, Ne.symm h]
      · by_cases hb : b = resetByte a <;> simp [Memory.write, h1, h2, hb, Memory.read, Ne.symm h]

/-- A read after a write to the same address gives the byte written. -/
theorem Memory.read_write_same (m : Memory) (a : Nat) (b : Byte) (hm : m.wf = true) :
    Memory.read (Memory.write m a b) a = b := by
  induction m with
  | nil => by_cases hb : b = resetByte a <;> simp [Memory.write, hb, Memory.read]
  | cons c rest ih =>
    obtain ⟨k, v⟩ := c
    obtain ⟨-, -, hgt, hrest⟩ := (Memory.wf_cons k v rest).1 hm
    by_cases h1 : k < a
    · simp [Memory.write, h1, Memory.read, Nat.ne_of_lt h1, ih hrest]
    · by_cases h2 : k = a
      · subst h2
        by_cases hb : b = resetByte k
        · simp [Memory.write, hb, Memory.read_of_all_gt rest k hgt]
        · simp [Memory.write, hb, Memory.read]
      · have hka : a < k := by omega
        by_cases hb : b = resetByte a
        · have hall : ∀ c ∈ ((k, v) :: rest : Memory), a < c.1 := by
            intro c hc
            rcases List.mem_cons.1 hc with rfl | hc
            · exact hka
            · exact Nat.lt_trans hka (hgt c hc)
          simp only [Memory.write, if_neg h1, if_neg h2, if_pos hb]
          rw [Memory.read_of_all_gt _ a hall, hb]
        · simp [Memory.write, h1, h2, hb, Memory.read]

theorem Memory.read_write (m : Memory) (a a' : Nat) (b : Byte) (hm : m.wf = true) :
    Memory.read (Memory.write m a b) a' = if a' = a then b else Memory.read m a' := by
  by_cases h : a' = a
  · subst h; simp [Memory.read_write_same m a' b hm]
  · simp [h, Memory.read_write_of_ne m a a' b h]

/-- Every address a write lists is the address written or was listed before. -/
theorem Memory.mem_write (m : Memory) (a : Nat) (b : Byte) (c : Host.Cell) (h : c ∈ Memory.write m a b) :
    c.1 = a ∨ c ∈ m := by
  induction m with
  | nil =>
    by_cases hb : b = resetByte a
    · simp [Memory.write, hb] at h
    · simp [Memory.write, hb] at h; exact .inl (by rw [h])
  | cons d rest ih =>
    obtain ⟨k, v⟩ := d
    by_cases h1 : k < a
    · simp only [Memory.write, if_pos h1, List.mem_cons] at h ⊢
      rcases h with h | h
      · exact .inr (.inl h)
      · exact (ih h).imp_right .inr
    · by_cases h2 : k = a <;> by_cases hb : b = resetByte a <;>
        simp only [Memory.write, if_neg h1, h2, hb, if_true, if_false, List.mem_cons] at h ⊢ <;> grind

/-- A write to an address below 4096 keeps the canonical form. -/
theorem Memory.wf_write (m : Memory) (a : Nat) (b : Byte) (ha : a < Config.memSize) (hm : m.wf = true) :
    (Memory.write m a b).wf = true := by
  induction m with
  | nil =>
    by_cases hb : b = resetByte a
    · simp [Memory.write, hb, Memory.wf]
    · simp [Memory.write, hb, ha, Memory.wf]
  | cons c rest ih =>
    obtain ⟨k, v⟩ := c
    obtain ⟨hk, hv, hgt, hrest⟩ := (Memory.wf_cons k v rest).1 hm
    by_cases h1 : k < a
    · simp only [Memory.write, if_pos h1, Memory.wf_cons]
      refine ⟨hk, hv, fun c hc => ?_, ih hrest⟩
      rcases Memory.mem_write rest a b c hc with h | h
      · omega
      · exact hgt c h
    · by_cases h2 : k = a
      · subst h2
        by_cases hb : b = resetByte k
        · simpa [Memory.write, hb] using hrest
        · simpa [Memory.write, hb, Memory.wf_cons, ha, hrest] using hgt
      · by_cases hb : b = resetByte a
        · simpa [Memory.write, h1, h2, hb] using hm
        · simp only [Memory.write, if_neg h1, if_neg h2, if_neg hb]
          refine (Memory.wf_cons _ _ _).2 ⟨ha, hb, fun c hc => ?_, hm⟩
          rcases List.mem_cons.1 hc with rfl | hc
          · show a < k
            omega
          · have := hgt c hc
            omega

/-! ### Runs of bytes -/

@[simp] theorem Memory.length_readRun (m : Memory) (a n : Nat) : (m.readRun a n).length = n := by
  induction n generalizing a with
  | zero => rfl
  | succ n ih => simp [Memory.readRun, ih]

/-- Byte k of a run read at a is the byte at a + k. -/
theorem Memory.getElem_readRun (m : Memory) (a n k : Nat) (h : k < (m.readRun a n).length) :
    (m.readRun a n)[k] = m.read (a + k) := by
  induction n generalizing a k with
  | zero => simp [Memory.readRun] at h
  | succ n ih =>
    cases k with
    | zero => simp [Memory.readRun]
    | succ k => simp [Memory.readRun, ih, Nat.add_assoc, Nat.add_comm 1 k]

/-- A run of writes leaves every address outside it alone. -/
theorem Memory.read_writeRun_outside (m : Memory) (a : Nat) (bytes : List Byte) (a' : Nat)
    (h : a' < a ∨ a + bytes.length ≤ a') : (m.writeRun a bytes).read a' = m.read a' := by
  induction bytes generalizing m a with
  | nil => rfl
  | cons b rest ih =>
    simp only [List.length_cons] at h
    rw [Memory.writeRun, ih _ _ (by omega), Memory.read_write_of_ne _ _ _ _ (by omega)]

/-- A run of writes inside the 4096 bytes keeps the canonical form. -/
theorem Memory.wf_writeRun (m : Memory) (a : Nat) (bytes : List Byte) (h : a + bytes.length ≤ Config.memSize)
    (hm : m.wf = true) : (m.writeRun a bytes).wf = true := by
  induction bytes generalizing m a with
  | nil => exact hm
  | cons b rest ih =>
    simp only [List.length_cons] at h
    exact ih _ _ (by omega) (Memory.wf_write m a b (by omega) hm)

/-- Byte k of a run of writes at a is read back at a + k. -/
theorem Memory.read_writeRun_inside (m : Memory) (a : Nat) (bytes : List Byte) (k : Nat) (hk : k < bytes.length)
    (h : a + bytes.length ≤ Config.memSize) (hm : m.wf = true) : (m.writeRun a bytes).read (a + k) = bytes[k] := by
  induction bytes generalizing m a k with
  | nil => simp at hk
  | cons b rest ih =>
    simp only [List.length_cons] at h hk
    cases k with
    | zero =>
      rw [Memory.writeRun, Memory.read_writeRun_outside _ _ _ _ (by omega)]
      exact Memory.read_write_same m a b hm
    | succ k =>
      have := ih (m.write a b) (a + 1) k (by omega) (by omega) (Memory.wf_write m a b (by omega) hm)
      rw [Nat.add_assoc, Nat.add_comm 1 k] at this
      exact this

/-- Memory at reset lists nothing, which is canonical. -/
theorem Memory.wf_reset : State.reset.mem.wf = true := rfl

end Sys2Proof.Machine
end

