-- ==== Sys2Proof/Laws/State.lean ====
section
/-! SUPPORT. What each named update of the state does to each field: one lemma per field per update, true by rfl. -/

namespace Sys2Proof.Machine

/-! ### `State.setV` -/

@[simp] theorem State.setV_v (s : State) (x : Reg) (b : Byte) : (s.setV x b).v = s.v.set x b := rfl
@[simp] theorem State.setV_i (s : State) (x : Reg) (b : Byte) : (s.setV x b).i = s.i := rfl
@[simp] theorem State.setV_pc (s : State) (x : Reg) (b : Byte) : (s.setV x b).pc = s.pc := rfl
@[simp] theorem State.setV_stack (s : State) (x : Reg) (b : Byte) : (s.setV x b).stack = s.stack := rfl
@[simp] theorem State.setV_sp (s : State) (x : Reg) (b : Byte) : (s.setV x b).sp = s.sp := rfl
@[simp] theorem State.setV_dt (s : State) (x : Reg) (b : Byte) : (s.setV x b).dt = s.dt := rfl
@[simp] theorem State.setV_st (s : State) (x : Reg) (b : Byte) : (s.setV x b).st = s.st := rfl
@[simp] theorem State.setV_fb (s : State) (x : Reg) (b : Byte) : (s.setV x b).fb = s.fb := rfl
@[simp] theorem State.setV_key (s : State) (x : Reg) (b : Byte) : (s.setV x b).key = s.key := rfl
@[simp] theorem State.setV_mem (s : State) (x : Reg) (b : Byte) : (s.setV x b).mem = s.mem := rfl
@[simp] theorem State.setV_fault (s : State) (x : Reg) (b : Byte) : (s.setV x b).fault = s.fault := rfl
@[simp] theorem State.setV_draws (s : State) (x : Reg) (b : Byte) : (s.setV x b).draws = s.draws := rfl

/-! ### `State.setRegsUpTo` -/

@[simp] theorem State.setRegsUpTo_i (s : State) (x : Reg) (bytes : List Byte) : (s.setRegsUpTo x bytes).i = s.i := rfl
@[simp] theorem State.setRegsUpTo_pc (s : State) (x : Reg) (bytes : List Byte) : (s.setRegsUpTo x bytes).pc = s.pc := rfl
@[simp] theorem State.setRegsUpTo_stack (s : State) (x : Reg) (bytes : List Byte) : (s.setRegsUpTo x bytes).stack = s.stack := rfl
@[simp] theorem State.setRegsUpTo_sp (s : State) (x : Reg) (bytes : List Byte) : (s.setRegsUpTo x bytes).sp = s.sp := rfl
@[simp] theorem State.setRegsUpTo_dt (s : State) (x : Reg) (bytes : List Byte) : (s.setRegsUpTo x bytes).dt = s.dt := rfl
@[simp] theorem State.setRegsUpTo_st (s : State) (x : Reg) (bytes : List Byte) : (s.setRegsUpTo x bytes).st = s.st := rfl
@[simp] theorem State.setRegsUpTo_fb (s : State) (x : Reg) (bytes : List Byte) : (s.setRegsUpTo x bytes).fb = s.fb := rfl
@[simp] theorem State.setRegsUpTo_key (s : State) (x : Reg) (bytes : List Byte) : (s.setRegsUpTo x bytes).key = s.key := rfl
@[simp] theorem State.setRegsUpTo_mem (s : State) (x : Reg) (bytes : List Byte) : (s.setRegsUpTo x bytes).mem = s.mem := rfl
@[simp] theorem State.setRegsUpTo_fault (s : State) (x : Reg) (bytes : List Byte) : (s.setRegsUpTo x bytes).fault = s.fault := rfl
@[simp] theorem State.setRegsUpTo_draws (s : State) (x : Reg) (bytes : List Byte) : (s.setRegsUpTo x bytes).draws = s.draws := rfl

/-! ### `State.setI` -/

@[simp] theorem State.setI_v (s : State) (w : Word) : (s.setI w).v = s.v := rfl
@[simp] theorem State.setI_i (s : State) (w : Word) : (s.setI w).i = w := rfl
@[simp] theorem State.setI_pc (s : State) (w : Word) : (s.setI w).pc = s.pc := rfl
@[simp] theorem State.setI_stack (s : State) (w : Word) : (s.setI w).stack = s.stack := rfl
@[simp] theorem State.setI_sp (s : State) (w : Word) : (s.setI w).sp = s.sp := rfl
@[simp] theorem State.setI_dt (s : State) (w : Word) : (s.setI w).dt = s.dt := rfl
@[simp] theorem State.setI_st (s : State) (w : Word) : (s.setI w).st = s.st := rfl
@[simp] theorem State.setI_fb (s : State) (w : Word) : (s.setI w).fb = s.fb := rfl
@[simp] theorem State.setI_key (s : State) (w : Word) : (s.setI w).key = s.key := rfl
@[simp] theorem State.setI_mem (s : State) (w : Word) : (s.setI w).mem = s.mem := rfl
@[simp] theorem State.setI_fault (s : State) (w : Word) : (s.setI w).fault = s.fault := rfl
@[simp] theorem State.setI_draws (s : State) (w : Word) : (s.setI w).draws = s.draws := rfl

/-! ### `State.advance` -/

@[simp] theorem State.advance_v (s : State) : (s.advance).v = s.v := rfl
@[simp] theorem State.advance_i (s : State) : (s.advance).i = s.i := rfl
@[simp] theorem State.advance_pc (s : State) : (s.advance).pc = s.pc + 2 := rfl
@[simp] theorem State.advance_stack (s : State) : (s.advance).stack = s.stack := rfl
@[simp] theorem State.advance_sp (s : State) : (s.advance).sp = s.sp := rfl
@[simp] theorem State.advance_dt (s : State) : (s.advance).dt = s.dt := rfl
@[simp] theorem State.advance_st (s : State) : (s.advance).st = s.st := rfl
@[simp] theorem State.advance_fb (s : State) : (s.advance).fb = s.fb := rfl
@[simp] theorem State.advance_key (s : State) : (s.advance).key = s.key := rfl
@[simp] theorem State.advance_mem (s : State) : (s.advance).mem = s.mem := rfl
@[simp] theorem State.advance_fault (s : State) : (s.advance).fault = s.fault := rfl
@[simp] theorem State.advance_draws (s : State) : (s.advance).draws = s.draws := rfl

/-! ### `State.skipIf` -/

@[simp] theorem State.skipIf_v (s : State) (c : Bool) : (s.skipIf c).v = s.v := rfl
@[simp] theorem State.skipIf_i (s : State) (c : Bool) : (s.skipIf c).i = s.i := rfl
@[simp] theorem State.skipIf_pc (s : State) (c : Bool) : (s.skipIf c).pc = if c then s.pc + 4 else s.pc + 2 := rfl
@[simp] theorem State.skipIf_stack (s : State) (c : Bool) : (s.skipIf c).stack = s.stack := rfl
@[simp] theorem State.skipIf_sp (s : State) (c : Bool) : (s.skipIf c).sp = s.sp := rfl
@[simp] theorem State.skipIf_dt (s : State) (c : Bool) : (s.skipIf c).dt = s.dt := rfl
@[simp] theorem State.skipIf_st (s : State) (c : Bool) : (s.skipIf c).st = s.st := rfl
@[simp] theorem State.skipIf_fb (s : State) (c : Bool) : (s.skipIf c).fb = s.fb := rfl
@[simp] theorem State.skipIf_key (s : State) (c : Bool) : (s.skipIf c).key = s.key := rfl
@[simp] theorem State.skipIf_mem (s : State) (c : Bool) : (s.skipIf c).mem = s.mem := rfl
@[simp] theorem State.skipIf_fault (s : State) (c : Bool) : (s.skipIf c).fault = s.fault := rfl
@[simp] theorem State.skipIf_draws (s : State) (c : Bool) : (s.skipIf c).draws = s.draws := rfl

/-! ### `State.jumpTo` -/

@[simp] theorem State.jumpTo_v (s : State) (w : Word) : (s.jumpTo w).v = s.v := rfl
@[simp] theorem State.jumpTo_i (s : State) (w : Word) : (s.jumpTo w).i = s.i := rfl
@[simp] theorem State.jumpTo_pc (s : State) (w : Word) : (s.jumpTo w).pc = w := rfl
@[simp] theorem State.jumpTo_stack (s : State) (w : Word) : (s.jumpTo w).stack = s.stack := rfl
@[simp] theorem State.jumpTo_sp (s : State) (w : Word) : (s.jumpTo w).sp = s.sp := rfl
@[simp] theorem State.jumpTo_dt (s : State) (w : Word) : (s.jumpTo w).dt = s.dt := rfl
@[simp] theorem State.jumpTo_st (s : State) (w : Word) : (s.jumpTo w).st = s.st := rfl
@[simp] theorem State.jumpTo_fb (s : State) (w : Word) : (s.jumpTo w).fb = s.fb := rfl
@[simp] theorem State.jumpTo_key (s : State) (w : Word) : (s.jumpTo w).key = s.key := rfl
@[simp] theorem State.jumpTo_mem (s : State) (w : Word) : (s.jumpTo w).mem = s.mem := rfl
@[simp] theorem State.jumpTo_fault (s : State) (w : Word) : (s.jumpTo w).fault = s.fault := rfl
@[simp] theorem State.jumpTo_draws (s : State) (w : Word) : (s.jumpTo w).draws = s.draws := rfl

/-! ### `State.raise` -/

@[simp] theorem State.raise_v (s : State) (f : FaultRecord) : (s.raise f).v = s.v := rfl
@[simp] theorem State.raise_i (s : State) (f : FaultRecord) : (s.raise f).i = s.i := rfl
@[simp] theorem State.raise_pc (s : State) (f : FaultRecord) : (s.raise f).pc = s.pc := rfl
@[simp] theorem State.raise_stack (s : State) (f : FaultRecord) : (s.raise f).stack = s.stack := rfl
@[simp] theorem State.raise_sp (s : State) (f : FaultRecord) : (s.raise f).sp = s.sp := rfl
@[simp] theorem State.raise_dt (s : State) (f : FaultRecord) : (s.raise f).dt = s.dt := rfl
@[simp] theorem State.raise_st (s : State) (f : FaultRecord) : (s.raise f).st = s.st := rfl
@[simp] theorem State.raise_fb (s : State) (f : FaultRecord) : (s.raise f).fb = s.fb := rfl
@[simp] theorem State.raise_key (s : State) (f : FaultRecord) : (s.raise f).key = s.key := rfl
@[simp] theorem State.raise_mem (s : State) (f : FaultRecord) : (s.raise f).mem = s.mem := rfl
@[simp] theorem State.raise_fault (s : State) (f : FaultRecord) : (s.raise f).fault = some f := rfl
@[simp] theorem State.raise_draws (s : State) (f : FaultRecord) : (s.raise f).draws = s.draws := rfl

/-! ### `State.setKeyState` -/

@[simp] theorem State.setKeyState_v (s : State) (k : Fin 16) (p : Bool) : (s.setKeyState k p).v = s.v := rfl
@[simp] theorem State.setKeyState_i (s : State) (k : Fin 16) (p : Bool) : (s.setKeyState k p).i = s.i := rfl
@[simp] theorem State.setKeyState_pc (s : State) (k : Fin 16) (p : Bool) : (s.setKeyState k p).pc = s.pc := rfl
@[simp] theorem State.setKeyState_stack (s : State) (k : Fin 16) (p : Bool) : (s.setKeyState k p).stack = s.stack := rfl
@[simp] theorem State.setKeyState_sp (s : State) (k : Fin 16) (p : Bool) : (s.setKeyState k p).sp = s.sp := rfl
@[simp] theorem State.setKeyState_dt (s : State) (k : Fin 16) (p : Bool) : (s.setKeyState k p).dt = s.dt := rfl
@[simp] theorem State.setKeyState_st (s : State) (k : Fin 16) (p : Bool) : (s.setKeyState k p).st = s.st := rfl
@[simp] theorem State.setKeyState_fb (s : State) (k : Fin 16) (p : Bool) : (s.setKeyState k p).fb = s.fb := rfl
@[simp] theorem State.setKeyState_key (s : State) (k : Fin 16) (p : Bool) : (s.setKeyState k p).key = s.key.set k p := rfl
@[simp] theorem State.setKeyState_mem (s : State) (k : Fin 16) (p : Bool) : (s.setKeyState k p).mem = s.mem := rfl
@[simp] theorem State.setKeyState_fault (s : State) (k : Fin 16) (p : Bool) : (s.setKeyState k p).fault = s.fault := rfl
@[simp] theorem State.setKeyState_draws (s : State) (k : Fin 16) (p : Bool) : (s.setKeyState k p).draws = s.draws := rfl

/-! ### `State.useRand` -/

@[simp] theorem State.useRand_v (s : State) : (s.useRand).v = s.v := rfl
@[simp] theorem State.useRand_i (s : State) : (s.useRand).i = s.i := rfl
@[simp] theorem State.useRand_pc (s : State) : (s.useRand).pc = s.pc := rfl
@[simp] theorem State.useRand_stack (s : State) : (s.useRand).stack = s.stack := rfl
@[simp] theorem State.useRand_sp (s : State) : (s.useRand).sp = s.sp := rfl
@[simp] theorem State.useRand_dt (s : State) : (s.useRand).dt = s.dt := rfl
@[simp] theorem State.useRand_st (s : State) : (s.useRand).st = s.st := rfl
@[simp] theorem State.useRand_fb (s : State) : (s.useRand).fb = s.fb := rfl
@[simp] theorem State.useRand_key (s : State) : (s.useRand).key = s.key := rfl
@[simp] theorem State.useRand_mem (s : State) : (s.useRand).mem = s.mem := rfl
@[simp] theorem State.useRand_fault (s : State) : (s.useRand).fault = s.fault := rfl
@[simp] theorem State.useRand_draws (s : State) : (s.useRand).draws = s.draws + 1 := rfl

/-! ### Updates that change nothing -/

@[simp] theorem State.halted_eq (s : State) : s.halted = s := rfl
@[simp] theorem State.blocked_eq (s : State) : s.blocked = s := rfl

/-! ### Reading a register after an update -/

@[simp] theorem State.getV_setV_same (s : State) (x : Reg) (b : Byte) : (s.setV x b).getV x = b := by
  simp [State.getV, State.setV]

theorem State.getV_setV_of_ne (s : State) (x r : Reg) (b : Byte) (h : r ≠ x) : (s.setV x b).getV r = s.getV r := by
  have hv : x.val ≠ r.val := fun e => h (Fin.ext e.symm)
  simp [State.getV, State.setV, hv]

theorem State.getV_setV (s : State) (x r : Reg) (b : Byte) : (s.setV x b).getV r = if r = x then b else s.getV r := by
  by_cases h : r = x
  · subst h; simp
  · simp [State.getV_setV_of_ne _ _ _ _ h, h]

theorem State.getV_setRegsUpTo (s : State) (x r : Reg) (bytes : List Byte) :
    (s.setRegsUpTo x bytes).getV r = if r ≤ x then bytes.getD r.val (s.getV r) else s.getV r := by
  simp [State.getV, State.setRegsUpTo]

@[simp] theorem State.getV_advance (s : State) (r : Reg) : s.advance.getV r = s.getV r := rfl
@[simp] theorem State.getV_skipIf (s : State) (c : Bool) (r : Reg) : (s.skipIf c).getV r = s.getV r := rfl
@[simp] theorem State.getV_jumpTo (s : State) (w : Word) (r : Reg) : (s.jumpTo w).getV r = s.getV r := rfl
@[simp] theorem State.getV_raise (s : State) (f : FaultRecord) (r : Reg) : (s.raise f).getV r = s.getV r := rfl
@[simp] theorem State.getV_setI (s : State) (w : Word) (r : Reg) : (s.setI w).getV r = s.getV r := rfl
@[simp] theorem State.getV_useRand (s : State) (r : Reg) : s.useRand.getV r = s.getV r := rfl
@[simp] theorem State.getV_setKeyState (s : State) (k : Fin 16) (p : Bool) (r : Reg) :
    (s.setKeyState k p).getV r = s.getV r := rfl

/-- The result first, the flag last (VF_WRITTEN_LAST = true): the flag survives in VF (R131). -/
theorem State.setResultAndFlag_eq (s : State) (x : Reg) (result flag : Byte) :
    s.setResultAndFlag x result flag = (s.setV x result).setV vf flag := rfl

end Sys2Proof.Machine
end

