-- ==== Sys2Proof/Laws/Ops.lean ====
section
/-! SUPPORT. For each shared operation one lemma that says everything it can do, for later proofs to cite. -/

namespace Sys2Proof.Machine

/-! ### The stack (R24, R25) -/

/-- A push fails exactly when sixteen entries are occupied; else it writes entry SP and nothing else but SP. -/
theorem State.push_cases (s : State) (w : Word) :
    (s.push w = none ∧ s.sp.val = 16) ∨
    ∃ h : s.sp.val < 16, s.push w = some { s with stack := s.stack.set s.sp.val w h, sp := ⟨s.sp.val + 1, Nat.succ_lt_succ h⟩ } := by
  by_cases h : s.sp.val < 16
  · exact .inr ⟨h, by simp [State.push, h]⟩
  · exact .inl ⟨by simp [State.push, h], by have := s.sp.isLt; simp only [Config.stackDepth] at this; omega⟩

/-- A pop fails exactly when the stack is empty; else it answers entry SP - 1 and changes SP only. -/
theorem State.pop_cases (s : State) :
    (s.pop = none ∧ s.sp.val = 0) ∨
    ∃ (n : Nat) (h : n < 16), s.sp.val = n + 1 ∧
      s.pop = some (s.stack[n], { s with sp := ⟨n, Nat.lt_succ_of_lt h⟩ }) := by
  obtain ⟨v, i, pc, stack, ⟨n, hn⟩, dt, st, fb, key, mem, fault, draws⟩ := s
  cases n with
  | zero => exact .inl ⟨rfl, rfl⟩
  | succ n => exact .inr ⟨n, Nat.lt_of_succ_lt_succ hn, rfl, rfl⟩

/-! ### Operand checks -/

/-- The check of a run of bytes: it fails with the lowest address out of range, `max(I, 0x1000)` (R55). -/
theorem runFault_cases (i : Word) (count : Nat) :
    (runFault i count = none ∧ (count = 0 ∨ i.toNat + count ≤ 0x1000)) ∨
    (runFault i count = some (outOfBoundsFault (max i.toNat 0x1000)) ∧ 0 < count ∧ 0x1000 < i.toNat + count) := by
  by_cases h : count > 0 ∧ i.toNat + (count - 1) > 0xFFF
  · exact .inr ⟨by simp only [runFault, if_pos h], by omega, by omega⟩
  · exact .inl ⟨by simp only [runFault, if_neg h], by omega⟩

/-- With the fault policy an operand above 15 is refused, and one of at most 15 is taken as it is. -/
theorem digitOperand_fault_cases (b : Byte) :
    (digitOperand .fault b = none ∧ 15 < b.toNat) ∨
    ∃ h : b.toNat < 16, digitOperand .fault b = some ⟨b.toNat, h⟩ := by
  by_cases h : b.toNat < 16
  · exact .inr ⟨h, by simp [digitOperand, h]⟩
  · exact .inl ⟨by simp [digitOperand, h], by omega⟩

/-- A flag is 0 or 1 (R21). -/
theorem flagByte_cases (c : Bool) : (c = true ∧ flagByte c = 1) ∨ (c = false ∧ flagByte c = 0) := by
  cases c <;> simp [flagByte]

/-- The flag of a subtraction is 1 exactly when the minuend is strictly greater, else 0 (BORROW_EQ_FLAG = 0). -/
theorem greaterFlag_eq (a b : Byte) : greaterFlag a b = flagByte (decide (a.toNat > b.toNat)) := by
  by_cases h : a.toNat > b.toNat <;> by_cases e : a = b <;> simp [greaterFlag, flagByte, Params.borrowEqFlag, h, e]

/-! ### The keypad wait (R205) -/

/-- The lowest pressed key, or none when no key is pressed. -/
theorem State.awaitKey_cases (s : State) :
    (s.awaitKey = none ∧ ∀ k : Fin 16, s.isPressed k = false) ∨
    ∃ k : Fin 16, s.awaitKey = some k ∧ s.isPressed k = true ∧ ∀ j : Fin 16, j < k → s.isPressed j = false := by
  cases h : s.awaitKey with
  | none =>
    refine .inl ⟨rfl, fun k => ?_⟩
    have := List.find?_eq_none.1 h k (List.mem_finRange k)
    simpa using this
  | some k =>
    refine .inr ⟨k, rfl, ?_, fun j hj => ?_⟩
    · exact List.find?_some (p := fun k => s.isPressed k) h
    · obtain ⟨-, as, bs, happ, hno⟩ := List.find?_eq_some_iff_append.1 h
      have hsorted : (List.finRange 16).Pairwise (· < ·) := by decide
      have hjm : j ∈ List.finRange 16 := List.mem_finRange j
      rw [happ] at hsorted hjm
      rcases List.mem_append.1 hjm with hja | hjb
      · simpa using hno j hja
      · exfalso
        rcases List.mem_cons.1 hjb with rfl | hjb
        · exact lt_irrefl _ hj
        · have := (List.pairwise_cons.1 (List.pairwise_append.1 hsorted).2.1).1 j hjb
          exact lt_asymm hj this

/-! ### The front half of a step (R53, R230) -/

/-- A PC is fetchable when it is even and at most 0xFFE (FETCH_REQUIRES_EVEN_PC = true). -/
theorem fetchable_iff (pc : Word) : fetchable pc = true ↔ pc.toNat % 2 = 0 ∧ pc.toNat ≤ 0xFFE := by
  have hbit : pc.getLsbD 0 = decide (pc.toNat % 2 = 1) := by
    simp [BitVec.getLsbD, Nat.testBit_zero]
  simp only [fetchable, Params.fetchRequiresEvenPc, hbit]
  simp only [Bool.true_and, Bool.and_eq_true, Bool.not_eq_true', decide_eq_false_iff_not, decide_eq_true_eq]
  omega

/-- The fetch: the big-endian word at PC, or `OutOfBounds(pc)`. -/
theorem fetch_cases (s : State) :
    (fetchable s.pc = true ∧ fetch s = .ok (wordOfBytes (s.mem.read s.pc.toNat) (s.mem.read (s.pc.toNat + 1)))) ∨
    (fetchable s.pc = false ∧ fetch s = .error (outOfBoundsFault s.pc.toNat)) := by
  cases h : fetchable s.pc with
  | false => exact .inr ⟨rfl, by simp [fetch, h]⟩
  | true =>
    have hpc := ((fetchable_iff s.pc).1 h).2
    refine .inl ⟨rfl, ?_⟩
    have h1 : ¬ s.pc.toNat > 0xFFF := by omega
    have h2 : ¬ s.pc.toNat + 1 > 0xFFF := by omega
    simp [fetch, h, memRead, h1, h2]

/-- Everything the front half of a step can answer, in the order of R230: latch, fetch, decode. -/
theorem beginStep_cases (s : State) :
    (∃ f, s.fault = some f ∧ beginStep s = .halted f) ∨
    (s.fault = none ∧ fetchable s.pc = false ∧ beginStep s = .faulted (outOfBoundsFault s.pc.toNat)) ∨
    (∃ op w, s.fault = none ∧ fetch s = .ok op ∧ decode op = .illegal w ∧
      beginStep s = .faulted ⟨.unimplementedOpcode, w.toNat⟩) ∨
    (∃ op i, s.fault = none ∧ fetchable s.pc = true ∧ fetch s = .ok op ∧ decode op = .instr i ∧ beginStep s = .run i) := by
  cases hf : s.fault with
  | some f => exact .inl ⟨f, rfl, by simp [beginStep, hf]⟩
  | none =>
    rcases fetch_cases s with ⟨hp, hok⟩ | ⟨hp, herr⟩
    · generalize hop : wordOfBytes (s.mem.read s.pc.toNat) (s.mem.read (s.pc.toNat + 1)) = op at hok
      cases hd : decode op with
      | illegal w => exact .inr (.inr (.inl ⟨op, w, rfl, hok, hd, by simp [beginStep, hf, hok, hd]⟩))
      | instr i => exact .inr (.inr (.inr ⟨op, i, rfl, hp, hok, hd, by simp [beginStep, hf, hok, hd]⟩))
    · exact .inr (.inl ⟨rfl, hp, by simp [beginStep, hf, herr]⟩)

/-! ### The grid (R27, R180) -/

theorem cell_setCell (fb : Framebuffer) (row row' : Fin 32) (col col' : Fin 64) (b : Bool) :
    cell (setCell fb row col b) row' col' = if row' = row ∧ col' = col then b else cell fb row' col' := by
  by_cases hr : row' = row
  · subst hr
    by_cases hc : col' = col
    · subst hc; simp [cell, setCell]
    · have : col.val ≠ col'.val := fun e => hc (Fin.ext e.symm)
      simp [cell, setCell, hc, this]
  · have : row.val ≠ row'.val := fun e => hr (Fin.ext e.symm)
    simp [cell, setCell, hr, this]

@[simp] theorem cell_clearGrid (row : Fin 32) (col : Fin 64) : cell clearGrid row col = false := by
  simp [cell, clearGrid]

/-- One position of a draw: the cell XORed, every other cell as before, the collision kept or found (R181, R183). -/
theorem drawCell_cases (acc : Framebuffer × Bool) (row : Fin 32) (col : Fin 64) (bit : Bool) :
    (∀ (row' : Fin 32) (col' : Fin 64), cell (drawCell acc row col bit).1 row' col' =
      (cell acc.1 row' col' ^^ (decide (row' = row ∧ col' = col) && bit))) ∧
    (drawCell acc row col bit).2 = (acc.2 || (bit && cell acc.1 row col)) := by
  refine ⟨fun row' col' => ?_, rfl⟩
  simp only [drawCell, cell_setCell]
  by_cases h : row' = row ∧ col' = col
  · obtain ⟨rfl, rfl⟩ := h; simp
  · simp [h]

end Sys2Proof.Machine
end

