-- ==== Sys2Proof/Laws/Step.lean ====
section
/-! SUPPORT. What a step does, case by case, and what it does with a word that `withFetchWord` has placed. -/

namespace Sys2Proof.Machine

/-- Everything a step can do: stay halted, set the latch, or execute the instruction decoded from the fetched word. -/
theorem step_cases (s : State) :
    (∃ f, s.fault = some f ∧ step s = .next s) ∨
    (∃ f, s.fault = none ∧ beginStep s = .faulted f ∧ step s = .next (s.raise f)) ∨
    (∃ i, s.fault = none ∧ beginStep s = .run i ∧ step s = exec i s) := by
  rcases beginStep_cases s with ⟨f, h, e⟩ | ⟨h, _, e⟩ | ⟨_, _, h, _, _, e⟩ | ⟨_, i, h, _, _, _, e⟩
  · exact .inl ⟨f, h, by simp [step, e, State.halted]⟩
  · exact .inr (.inl ⟨_, h, e, by simp [step, e]⟩)
  · exact .inr (.inl ⟨_, h, e, by simp [step, e]⟩)
  · exact .inr (.inr ⟨i, h, e, by simp [step, e]⟩)

/-- The PC at which a word is placed can be fetched from. -/
theorem placeWord_fetchable (s : State) (op : Opcode) : fetchable (placeWord s op).pc = true := by
  simp only [placeWord]
  split
  · assumption
  · decide

/-- A placed word is the word that the next step fetches. -/
theorem fetch_placeWord (s : State) (op : Opcode) (hm : s.mem.wf = true) : fetch (placeWord s op) = .ok op := by
  have hf := placeWord_fetchable s op
  rcases fetch_cases (placeWord s op) with ⟨_, e⟩ | ⟨h, _⟩
  · have hb := (fetchable_iff _).1 hf
    have hlen : (placeWord s op).pc.toNat + (bytesOfWord op).length ≤ Config.memSize := by
      simp only [bytesOfWord, List.length_cons, List.length_nil, Config.memSize]; omega
    have hi := Memory.read_writeRun_inside s.mem _ (bytesOfWord op) 0 (by simp [bytesOfWord]) hlen hm
    have lo := Memory.read_writeRun_inside s.mem _ (bytesOfWord op) 1 (by simp [bytesOfWord]) hlen hm
    have hmem : (placeWord s op).mem = s.mem.writeRun (placeWord s op).pc.toNat (bytesOfWord op) := rfl
    rw [e, hmem]
    simp only [Nat.add_zero] at hi
    rw [hi, lo]
    congr 1
    apply BitVec.eq_of_getLsbD_eq
    intro b hb
    simp only [wordOfBytes, bytesOfWord, List.getElem_cons_zero, List.getElem_cons_succ, BitVec.getLsbD_append,
      BitVec.getLsbD_extractLsb']
    by_cases h8 : b < 8
    · simp [h8]
    · have : b - 8 < 8 := by omega
      simp [h8, this, show 8 + (b - 8) = b by omega]
  · rw [hf] at h; cases h

/-- A step after `withFetchWord` executes the placed instruction. -/
theorem step_withFetchWord (s : State) (nbits w : Nat) (i : Instr) (hm : s.mem.wf = true)
    (hd : decode (BitVec.ofNat 16 (w % 2 ^ nbits)) = .instr i) :
    step (s.withFetchWord nbits w) = exec i (s.withFetchWord nbits w) := by
  have hf : fetch (s.withFetchWord nbits w) = .ok _ := fetch_placeWord s _ hm
  have hn : (s.withFetchWord nbits w).fault = none := rfl
  simp [step, beginStep, hn, hf, hd]

end Sys2Proof.Machine
end

