-- ==== Sys2Proof/Laws/Events.lean ====
section
/-! SUPPORT. What `LoadRom` and its report can be, and what a blocked report means. -/

namespace Sys2Proof.Machine

/-- Everything the check of `LoadRom` can answer (R264), with the state and the report that follow from it (R240). -/
theorem romFault_cases (bytes : List Byte) :
    (bytes.length ≤ 3584 ∧ romFault bytes = none ∧ loadReport bytes = .ok ∧
      ∀ s, hostLoadRom bytes s = { s with mem := s.mem.writeRun 0x200 bytes }) ∨
    (3584 < bytes.length ∧ romFault bytes = some ⟨.romTooLarge, bytes.length⟩ ∧
      loadReport bytes = .fault ⟨.romTooLarge, bytes.length⟩ ∧
      ∀ s, hostLoadRom bytes s = s.raise ⟨.romTooLarge, bytes.length⟩) := by
  by_cases h : bytes.length > 3584
  · have e : romFault bytes = some ⟨.romTooLarge, bytes.length⟩ := by simp [romFault, Config.romMax, h]
    exact .inr ⟨h, e, by simp [loadReport, e], fun s => by simp [hostLoadRom, e]⟩
  · have e : romFault bytes = none := by simp [romFault, Config.romMax, h]
    exact .inl ⟨by omega, e, by simp [loadReport, e], fun s => by simp [hostLoadRom, e, Config.romBase]⟩

/-- A state is blocked exactly when its next step executes Fx0A and no key is pressed (R31). -/
theorem isBlocked_iff (s : State) : s.isBlocked = true ↔ (∃ x, beginStep s = .run (.ldVxK x)) ∧ s.awaitKey = none := by
  unfold State.isBlocked
  split
  · rename_i x h; simp [h]
  · rename_i h
    constructor
    · intro c; cases c
    · rintro ⟨⟨x, e⟩, _⟩; exact absurd e (h x)

end Sys2Proof.Machine
end

