-- ==== Sys2Proof/Laws/PerInstr.lean ====
section
/-! SUPPORT. Statements about every instruction as syntax, one lemma per constructor. `RowMatch`: the encoder's word of an
instruction is selected by that instruction's row of the opcode table (spec/30_encoding.md R86), whatever its operands. -/

namespace Sys2Proof.Laws

/-- The word of an instruction matches the mask and match value of its own row (R86). -/
def RowMatch.Statement (i : Instr) : Prop := (rowOf i).selects (encode i) = true

theorem RowMatch.cls : RowMatch.Statement .cls := rfl

theorem RowMatch.ret : RowMatch.Statement .ret := rfl

theorem RowMatch.jp (nnn : BitVec 12) : RowMatch.Statement (.jp nnn) := by
  show (encNnn 0x1 nnn &&& 0xF000 == 0x1000) = true
  rw [encNnn_and_group]
  rfl

theorem RowMatch.call (nnn : BitVec 12) : RowMatch.Statement (.call nnn) := by
  show (encNnn 0x2 nnn &&& 0xF000 == 0x2000) = true
  rw [encNnn_and_group]
  rfl

theorem RowMatch.seImm (x : Reg) (kk : Byte) : RowMatch.Statement (.seImm x kk) := by
  show (encXkk 0x3 x kk &&& 0xF000 == 0x3000) = true
  rw [encXkk_and_group]
  rfl

theorem RowMatch.sneImm (x : Reg) (kk : Byte) : RowMatch.Statement (.sneImm x kk) := by
  show (encXkk 0x4 x kk &&& 0xF000 == 0x4000) = true
  rw [encXkk_and_group]
  rfl

theorem RowMatch.seReg (x y : Reg) : RowMatch.Statement (.seReg x y) := by
  show (encXyn 0x5 x y 0x0 &&& 0xF00F == 0x5000) = true
  rw [encXyn_and_low]
  rfl

theorem RowMatch.ldImm (x : Reg) (kk : Byte) : RowMatch.Statement (.ldImm x kk) := by
  show (encXkk 0x6 x kk &&& 0xF000 == 0x6000) = true
  rw [encXkk_and_group]
  rfl

theorem RowMatch.addImm (x : Reg) (kk : Byte) : RowMatch.Statement (.addImm x kk) := by
  show (encXkk 0x7 x kk &&& 0xF000 == 0x7000) = true
  rw [encXkk_and_group]
  rfl

theorem RowMatch.ldReg (x y : Reg) : RowMatch.Statement (.ldReg x y) := by
  show (encXyn 0x8 x y 0x0 &&& 0xF00F == 0x8000) = true
  rw [encXyn_and_low]
  rfl

theorem RowMatch.or (x y : Reg) : RowMatch.Statement (.or x y) := by
  show (encXyn 0x8 x y 0x1 &&& 0xF00F == 0x8001) = true
  rw [encXyn_and_low]
  rfl

theorem RowMatch.and (x y : Reg) : RowMatch.Statement (.and x y) := by
  show (encXyn 0x8 x y 0x2 &&& 0xF00F == 0x8002) = true
  rw [encXyn_and_low]
  rfl

theorem RowMatch.xor (x y : Reg) : RowMatch.Statement (.xor x y) := by
  show (encXyn 0x8 x y 0x3 &&& 0xF00F == 0x8003) = true
  rw [encXyn_and_low]
  rfl

theorem RowMatch.addReg (x y : Reg) : RowMatch.Statement (.addReg x y) := by
  show (encXyn 0x8 x y 0x4 &&& 0xF00F == 0x8004) = true
  rw [encXyn_and_low]
  rfl

theorem RowMatch.sub (x y : Reg) : RowMatch.Statement (.sub x y) := by
  show (encXyn 0x8 x y 0x5 &&& 0xF00F == 0x8005) = true
  rw [encXyn_and_low]
  rfl

theorem RowMatch.shr (x y : Reg) : RowMatch.Statement (.shr x y) := by
  show (encXyn 0x8 x y 0x6 &&& 0xF00F == 0x8006) = true
  rw [encXyn_and_low]
  rfl

theorem RowMatch.subn (x y : Reg) : RowMatch.Statement (.subn x y) := by
  show (encXyn 0x8 x y 0x7 &&& 0xF00F == 0x8007) = true
  rw [encXyn_and_low]
  rfl

theorem RowMatch.shl (x y : Reg) : RowMatch.Statement (.shl x y) := by
  show (encXyn 0x8 x y 0xE &&& 0xF00F == 0x800E) = true
  rw [encXyn_and_low]
  rfl

theorem RowMatch.sneReg (x y : Reg) : RowMatch.Statement (.sneReg x y) := by
  show (encXyn 0x9 x y 0x0 &&& 0xF00F == 0x9000) = true
  rw [encXyn_and_low]
  rfl

theorem RowMatch.ldI (nnn : BitVec 12) : RowMatch.Statement (.ldI nnn) := by
  show (encNnn 0xA nnn &&& 0xF000 == 0xA000) = true
  rw [encNnn_and_group]
  rfl

theorem RowMatch.jpV0 (nnn : BitVec 12) : RowMatch.Statement (.jpV0 nnn) := by
  show (encNnn 0xB nnn &&& 0xF000 == 0xB000) = true
  rw [encNnn_and_group]
  rfl

theorem RowMatch.rnd (x : Reg) (kk : Byte) : RowMatch.Statement (.rnd x kk) := by
  show (encXkk 0xC x kk &&& 0xF000 == 0xC000) = true
  rw [encXkk_and_group]
  rfl

theorem RowMatch.drw (x y : Reg) (n : Fin 16) : RowMatch.Statement (.drw x y n) := by
  show (encXyn 0xD x y (nibble n) &&& 0xF000 == 0xD000) = true
  rw [encXyn_and_group]
  rfl

theorem RowMatch.skp (x : Reg) : RowMatch.Statement (.skp x) := by
  show (encXkk 0xE x 0x9E &&& 0xF0FF == 0xE09E) = true
  rw [encXkk_and_low]
  rfl

theorem RowMatch.sknp (x : Reg) : RowMatch.Statement (.sknp x) := by
  show (encXkk 0xE x 0xA1 &&& 0xF0FF == 0xE0A1) = true
  rw [encXkk_and_low]
  rfl

theorem RowMatch.ldVxDt (x : Reg) : RowMatch.Statement (.ldVxDt x) := by
  show (encXkk 0xF x 0x07 &&& 0xF0FF == 0xF007) = true
  rw [encXkk_and_low]
  rfl

theorem RowMatch.ldVxK (x : Reg) : RowMatch.Statement (.ldVxK x) := by
  show (encXkk 0xF x 0x0A &&& 0xF0FF == 0xF00A) = true
  rw [encXkk_and_low]
  rfl

theorem RowMatch.ldDtVx (x : Reg) : RowMatch.Statement (.ldDtVx x) := by
  show (encXkk 0xF x 0x15 &&& 0xF0FF == 0xF015) = true
  rw [encXkk_and_low]
  rfl

theorem RowMatch.ldStVx (x : Reg) : RowMatch.Statement (.ldStVx x) := by
  show (encXkk 0xF x 0x18 &&& 0xF0FF == 0xF018) = true
  rw [encXkk_and_low]
  rfl

theorem RowMatch.addI (x : Reg) : RowMatch.Statement (.addI x) := by
  show (encXkk 0xF x 0x1E &&& 0xF0FF == 0xF01E) = true
  rw [encXkk_and_low]
  rfl

theorem RowMatch.ldF (x : Reg) : RowMatch.Statement (.ldF x) := by
  show (encXkk 0xF x 0x29 &&& 0xF0FF == 0xF029) = true
  rw [encXkk_and_low]
  rfl

theorem RowMatch.ldB (x : Reg) : RowMatch.Statement (.ldB x) := by
  show (encXkk 0xF x 0x33 &&& 0xF0FF == 0xF033) = true
  rw [encXkk_and_low]
  rfl

theorem RowMatch.ldMemVx (x : Reg) : RowMatch.Statement (.ldMemVx x) := by
  show (encXkk 0xF x 0x55 &&& 0xF0FF == 0xF055) = true
  rw [encXkk_and_low]
  rfl

theorem RowMatch.ldVxMem (x : Reg) : RowMatch.Statement (.ldVxMem x) := by
  show (encXkk 0xF x 0x65 &&& 0xF0FF == 0xF065) = true
  rw [encXkk_and_low]
  rfl

end Sys2Proof.Laws
end

