-- ==== Sys2Proof/Tests/Slice0.lean ====
section
/-! SUPPORT. Our own tests. Expected results are from spec/: the encodings of 30_encoding.md R86, the vectors of
95_test_vectors.md (named in each comment), the tables of 60_exceptions.md. The witnesses at the end show a concrete case that
meets the hypotheses of each statement of Certificates/Slice0/Obligations.lean. -/

namespace Sys2Proof.Tests

open Sys2Proof Sys2Proof.Machine Sys2Proof.Safety

/-! ## Well-formedness of words (R88) -/

theorem test_wf_group0 : wellFormedWord 0x0123 = false ∧ wellFormedWord 0x00E1 = false ∧ wellFormedWord 0x0000 = false := by decide
theorem test_wf_group5 : wellFormedWord 0x5121 = false ∧ wellFormedWord 0x5120 = true := by decide
theorem test_wf_group8 : wellFormedWord 0x8128 = false ∧ wellFormedWord 0x812D = false ∧ wellFormedWord 0x812F = false := by decide
theorem test_wf_group9 : wellFormedWord 0x9AB1 = false ∧ wellFormedWord 0x9AB0 = true := by decide
theorem test_wf_groupE : wellFormedWord 0xE19F = false ∧ wellFormedWord 0xE000 = false ∧ wellFormedWord 0xE1A0 = false := by decide
theorem test_wf_groupF : wellFormedWord 0xF000 = false ∧ wellFormedWord 0xF130 = false ∧ wellFormedWord 0xF185 = false := by decide
theorem test_table_has_34_rows : opcodeTable.length = 34 := by decide

/-! ## Decoding, word by word: the bits of R86's patterns with the fields of R81 -/

theorem test_decode_cls : decode 0b0000_0000_1110_0000#16 = .instr .cls := by decide
theorem test_decode_ret : decode 0b0000_0000_1110_1110#16 = .instr .ret := by decide
theorem test_decode_jp : decode 0b0001_1010_1011_1100#16 = .instr (.jp 0xABC) := by decide
theorem test_decode_call : decode 0b0010_0010_0000_1010#16 = .instr (.call 0x20A) := by decide
theorem test_decode_seImm : decode 0b0011_0011_0100_0010#16 = .instr (.seImm 3 0x42) := by decide
theorem test_decode_sneImm : decode 0b0100_0011_0001_0001#16 = .instr (.sneImm 3 0x11) := by decide
theorem test_decode_seReg : decode 0b0101_0001_0010_0000#16 = .instr (.seReg 1 2) := by decide
theorem test_decode_ldImm : decode 0b0110_1010_1111_1110#16 = .instr (.ldImm 10 0xFE) := by decide
theorem test_decode_addImm : decode 0b0111_0001_0000_0010#16 = .instr (.addImm 1 0x02) := by decide
theorem test_decode_ldReg : decode 0b1000_0001_0010_0000#16 = .instr (.ldReg 1 2) := by decide
theorem test_decode_or : decode 0b1000_0001_0010_0001#16 = .instr (.or 1 2) := by decide
theorem test_decode_and : decode 0b1000_0001_0010_0010#16 = .instr (.and 1 2) := by decide
theorem test_decode_xor : decode 0b1000_0001_0010_0011#16 = .instr (.xor 1 2) := by decide
theorem test_decode_addReg : decode 0b1000_0000_0001_0100#16 = .instr (.addReg 0 1) := by decide
theorem test_decode_sub : decode 0b1000_0001_0010_0101#16 = .instr (.sub 1 2) := by decide
theorem test_decode_shr : decode 0b1000_1010_1011_0110#16 = .instr (.shr 10 11) := by decide
theorem test_decode_subn : decode 0b1000_0001_0010_0111#16 = .instr (.subn 1 2) := by decide
theorem test_decode_shl : decode 0b1000_0001_0010_1110#16 = .instr (.shl 1 2) := by decide
theorem test_decode_sneReg : decode 0b1001_0001_0010_0000#16 = .instr (.sneReg 1 2) := by decide
theorem test_decode_ldI : decode 0b1010_0011_0000_0001#16 = .instr (.ldI 0x301) := by decide
theorem test_decode_jpV0 : decode 0b1011_0011_0000_0010#16 = .instr (.jpV0 0x302) := by decide
theorem test_decode_rnd : decode 0b1100_0011_0000_1111#16 = .instr (.rnd 3 0x0F) := by decide
theorem test_decode_drw : decode 0b1101_0001_0010_1111#16 = .instr (.drw 1 2 15) := by decide
theorem test_decode_skp : decode 0b1110_0001_1001_1110#16 = .instr (.skp 1) := by decide
theorem test_decode_sknp : decode 0b1110_0001_1010_0001#16 = .instr (.sknp 1) := by decide
theorem test_decode_ldVxDt : decode 0b1111_0010_0000_0111#16 = .instr (.ldVxDt 2) := by decide
theorem test_decode_ldVxK : decode 0b1111_0001_0000_1010#16 = .instr (.ldVxK 1) := by decide
theorem test_decode_ldDtVx : decode 0b1111_0001_0001_0101#16 = .instr (.ldDtVx 1) := by decide
theorem test_decode_ldStVx : decode 0b1111_0001_0001_1000#16 = .instr (.ldStVx 1) := by decide
theorem test_decode_addI : decode 0b1111_0001_0001_1110#16 = .instr (.addI 1) := by decide
theorem test_decode_ldF : decode 0b1111_0100_0010_1001#16 = .instr (.ldF 4) := by decide
theorem test_decode_ldB : decode 0b1111_0001_0011_0011#16 = .instr (.ldB 1) := by decide
theorem test_decode_ldMemVx : decode 0b1111_0001_0101_0101#16 = .instr (.ldMemVx 1) := by decide
theorem test_decode_ldVxMem : decode 0b1111_1111_0110_0101#16 = .instr (.ldVxMem 15) := by decide

/-- Big-endian bytes (X1), what follows is left, and a lone byte is no instruction (R80). -/
theorem test_decode_bytes : decodeBytes [0x12, 0x34, 0x56] = .instr (.jp 0x234) [0x56] ∧ decodeBytes [0x12] = .truncated ∧
    decodeBytes [0x01, 0x23] = .illegal 0x0123 [] := by decide

theorem test_decode_table_word : decodeTableWord 16 0x6A0F = some (.ldImm 10 0x0F) ∧ decodeTableWord 16 0x0000 = none := by decide

/-! ## One step -/

/-- The next state of an outcome; no outcome of this machine is another one. -/
def next : Result → State
  | .next t => t
  | .fault f => nomatch f
  | .refused _ => State.reset

/-- One step of `w` placed at PC. -/
def run (s : State) (w : Nat) : State := next (step (s.withFetchWord 16 w))

/-- The reset state with some general registers set. -/
def regs (l : List (Reg × Byte)) : State := l.foldl (fun s p => s.setV p.1 p.2) State.reset

/-- The reset state with some bytes stored at 0x300 and I there. -/
def data (l : List (Reg × Byte)) (bytes : List Byte) : State := { regs l with mem := Memory.writeRun [] 0x300 bytes, i := 0x300 }

/-- The columns of a row that are lit. -/
def lit (s : State) (row : Fin 32) : List (Fin 64) := (List.finRange 64).filter fun c => cell s.fb row c

-- control flow: F1, F5, F7, F8, F9, F10, F11, F12, F13, F14, F15, F16, F17, F18, F19, F21
theorem test_jp : (run State.reset 0x1ABC).pc = 0x0ABC := by decide
theorem test_jpV0_unreduced : (run (regs [(0, 0xFF)]) 0xBFFF).pc = 0x10FE := by decide
theorem test_seImm : (run (regs [(3, 0x42)]) 0x3342).pc = 0x204 ∧ (run (regs [(3, 0x42)]) 0x3343).pc = 0x202 := by decide
theorem test_sneImm : (run (regs [(3, 0x42)]) 0x4342).pc = 0x202 ∧ (run (regs [(3, 0x42)]) 0x4300).pc = 0x204 := by decide
theorem test_seReg : (run (regs [(1, 7), (2, 8)]) 0x5120).pc = 0x202 ∧ (run (regs [(1, 7)]) 0x5110).pc = 0x204 := by decide
theorem test_sneReg : (run (regs [(1, 7), (2, 8)]) 0x9120).pc = 0x204 ∧ (run (regs [(1, 7)]) 0x9110).pc = 0x202 := by decide
theorem test_call : (run State.reset 0x2300).pc = 0x300 ∧ (run State.reset 0x2300).sp = 1 ∧ (run State.reset 0x2300).stack[0] = 0x202 := by decide
theorem test_call_depth : (run { State.reset with sp := 15 } 0x2300).stack[15] = 0x202 ∧
    (run { State.reset with sp := 16 } 0x2300).fault = some ⟨.stackOverflow, 0x200⟩ := by decide
theorem test_ret : (run { State.reset with sp := 1, stack := State.reset.stack.set 0 0x206 } 0x00EE).pc = 0x206 := by decide
theorem test_ret_underflow : (run State.reset 0x00EE).fault = some ⟨.stackUnderflow, 0x200⟩ ∧ (run State.reset 0x00EE).pc = 0x200 := by decide

-- load and ALU: A1, A2, A3, A4, A5, A6, A8, A9, A9c, A11, A12, A13b, A14, A15, A16, A18, A20, A21, A22, A23, A25
theorem test_ldImm : (run State.reset 0x6AFF).getV 10 = 0xFF ∧ (run State.reset 0x6AFF).pc = 0x202 := by decide
theorem test_addImm : (run (regs [(1, 0xFF), (15, 9)]) 0x7101).getV 1 = 0 ∧ (run (regs [(1, 0xFF), (15, 9)]) 0x7101).getV 15 = 9 := by decide
theorem test_addImm_vf : (run (regs [(15, 5)]) 0x7F01).getV 15 = 6 := by decide
theorem test_ldReg : (run (regs [(1, 0x0C), (2, 0x0A)]) 0x8120).getV 1 = 0x0A := by decide
theorem test_or : (run (regs [(1, 0x0C), (2, 0x0A), (15, 7)]) 0x8121).getV 1 = 0x0E ∧ (run (regs [(1, 0x0C), (2, 0x0A), (15, 7)]) 0x8121).getV 15 = 7 := by decide
theorem test_and : (run (regs [(1, 0x0C), (2, 0x0A)]) 0x8122).getV 1 = 0x08 := by decide
theorem test_xor : (run (regs [(1, 0x0C), (2, 0x0A)]) 0x8123).getV 1 = 0x06 := by decide
theorem test_addReg : (run (regs [(0, 0xFF), (1, 1)]) 0x8014).getV 0 = 0 ∧ (run (regs [(0, 0xFF), (1, 1)]) 0x8014).getV 15 = 1 ∧
    (run (regs [(0, 0x80), (1, 0x7F)]) 0x8014).getV 15 = 0 := by decide
theorem test_addReg_vf : (run (regs [(15, 0x10), (1, 0xF5)]) 0x8F14).getV 15 = 1 ∧ (run (regs [(0, 0xFF), (15, 2)]) 0x80F4).getV 0 = 1 := by decide
theorem test_sub : (run (regs [(0, 3), (1, 5)]) 0x8015).getV 0 = 0xFE ∧ (run (regs [(0, 3), (1, 5)]) 0x8015).getV 15 = 0 := by decide
theorem test_sub_flag : (run (regs [(0, 5), (1, 5)]) 0x8015).getV 15 = 0 ∧ (run (regs [(15, 9), (1, 3)]) 0x8F15).getV 15 = 1 := by decide
theorem test_shr : (run (regs [(0, 5)]) 0x8006).getV 0 = 2 ∧ (run (regs [(0, 5)]) 0x8006).getV 15 = 1 := by decide
theorem test_shr_ignores_y : (run (regs [(0, 4), (1, 0xFF)]) 0x8016).getV 0 = 2 ∧ (run (regs [(15, 3)]) 0x8F06).getV 15 = 1 := by decide
theorem test_subn : (run (regs [(0, 3), (1, 5)]) 0x8017).getV 0 = 2 ∧ (run (regs [(0, 3), (1, 5)]) 0x8017).getV 15 = 1 := by decide
theorem test_subn_flag : (run (regs [(0, 5), (1, 3)]) 0x8017).getV 0 = 0xFE ∧ (run (regs [(0, 5), (1, 5)]) 0x8017).getV 15 = 0 := by decide
theorem test_shl : (run (regs [(0, 0x81)]) 0x800E).getV 0 = 2 ∧ (run (regs [(0, 0x81)]) 0x800E).getV 15 = 1 := by decide
theorem test_shl_flag : (run (regs [(0, 0x40)]) 0x800E).getV 15 = 0 ∧ (run (regs [(15, 0x80)]) 0x8F0E).getV 15 = 1 := by decide
theorem test_rnd_mask_zero : execRnd 3 0x00 State.reset = .next (State.reset.useRand.setV 3 0x00).advance := by
  simp [execRnd]

-- index and memory: M1, M2, M3, M4b, M4c, M5, M7, M8, M9 (first and last byte), M10, M12, M13, M14
theorem test_ldI : (run State.reset 0xAFFF).i = 0x0FFF := by decide
theorem test_addI : (run { regs [(1, 1)] with i := 0x0FFF } 0xF11E).i = 0x1000 ∧ (run { regs [(1, 1)] with i := 0xFFFF } 0xF11E).i = 0 := by decide
theorem test_ldF : (run (regs [(4, 0x0F)]) 0xF429).i = 0x4B := by decide
theorem test_ldF_fault : (run (regs [(4, 0x10)]) 0xF429).fault = some ⟨.operandOutOfRange, 0x10⟩ := by decide
theorem test_ldB : (run (data [(0, 0xFE)] []) 0xF033).mem.readRun 0x300 3 = [2, 5, 4] := by decide
theorem test_ldB_fault : run { regs [(0, 0x7B)] with i := 0xFFE } 0xF033 =
    (({ regs [(0, 0x7B)] with i := 0xFFE }).withFetchWord 16 0xF033).raise ⟨.outOfBounds, 0x1000⟩ := by decide +kernel
theorem test_ldMemVx : (run { regs [(0, 0x11), (1, 0x22), (2, 0x33)] with i := 0x400 } 0xF155).mem.readRun 0x400 3 = [0x11, 0x22, 0x00] := by decide
theorem test_ldMemVx_fault : (run { regs [(0, 0x11)] with i := 0xFF1 } 0xFF55).fault = some ⟨.outOfBounds, 0x1000⟩ ∧
    (run { regs [(0, 0x11)] with i := 0xFF1 } 0xFF55).mem.read 0xFF1 = 0 := by decide
theorem test_ldVxMem : (run (data [(3, 9)] [2, 5, 4, 8]) 0xF265).v.toList.take 4 = [2, 5, 4, 9] := by decide
theorem test_ldVxMem_font : (run State.reset 0xF465).v.toList.take 6 = [0xF0, 0x90, 0x90, 0x90, 0xF0, 0] := by decide

-- display: G1, G2, G4, G5, G7, G8, G9, G10, G12, G13
theorem test_cls : lit (run { regs [(15, 7)] with fb := setCell clearGrid 3 5 true } 0x00E0) 3 = [] ∧
    (run { regs [(15, 7)] with fb := setCell clearGrid 3 5 true } 0x00E0).getV 15 = 7 := by decide +kernel
theorem test_drw_wraps_columns : lit (run (data [(0, 60)] [0xFF]) 0xD011) 0 = [0, 1, 2, 3, 60, 61, 62, 63] := by decide +kernel
theorem test_drw_reduces_start : lit (run (data [(0, 70), (1, 33)] [0x80]) 0xD011) 1 = [6] := by decide +kernel
theorem test_drw_wraps_rows : lit (run (data [(1, 31)] [0xFF, 0xC0]) 0xD012) 0 = [0, 1] := by decide +kernel
theorem test_drw_collision_first_bit : (run { data [] [0x81] with fb := setCell clearGrid 0 0 true } 0xD011).getV 15 = 1 ∧
    lit (run { data [] [0x81] with fb := setCell clearGrid 0 0 true } 0xD011) 0 = [7] := by decide +kernel
theorem test_drw_coordinate_vf : lit (run (data [(15, 4)] [0xF0]) 0xDFF1) 4 = [4, 5, 6, 7] ∧ (run (data [(15, 4)] [0xF0]) 0xDFF1).getV 15 = 0 := by decide +kernel
theorem test_drw_height_zero : (run { regs [(15, 1)] with i := 0xFFFF } 0xD010).getV 15 = 0 := by decide
theorem test_drw_fault : (run { regs [(15, 1)] with i := 0xFFF } 0xD012).fault = some ⟨.outOfBounds, 0x1000⟩ := by decide

-- keypad and timers: K1, K2, K3, K4, K5, K6, K8, K9, K11, K12, K13
theorem test_skp : (run ((regs [(1, 7)]).setKeyState 7 true) 0xE19E).pc = 0x204 ∧ (run (regs [(1, 7)]) 0xE19E).pc = 0x202 := by decide
theorem test_sknp : (run ((regs [(1, 7)]).setKeyState 7 true) 0xE1A1).pc = 0x202 ∧ (run (regs [(1, 7)]) 0xE1A1).pc = 0x204 := by decide
theorem test_skp_fault : (run (regs [(1, 0x10)]) 0xE19E).fault = some ⟨.operandOutOfRange, 0x10⟩ := by decide
theorem test_sknp_fault : (run (regs [(1, 0x10)]) 0xE1A1).fault = some ⟨.operandOutOfRange, 0x10⟩ := by decide
theorem test_ldVxK_blocks : run State.reset 0xF10A = State.reset.withFetchWord 16 0xF10A ∧
    stepReport (State.reset.withFetchWord 16 0xF10A) (run State.reset 0xF10A) = .blocked := by decide +kernel
theorem test_ldVxK_lowest : (run ((State.reset.setKeyState 9 true).setKeyState 3 true) 0xF10A).getV 1 = 3 ∧
    (run ((State.reset.setKeyState 9 true).setKeyState 3 true) 0xF10A).key.toList.idxOf? true = some 9 := by decide
theorem test_ldVxDt : (run { State.reset with dt := 0x39 } 0xF207).getV 2 = 0x39 := by decide
theorem test_ldDtVx : (run (regs [(0, 0x3C)]) 0xF015).dt = 0x3C ∧ (run (regs [(0, 0x3C)]) 0xF015).st = 0 := by decide
theorem test_ldStVx : (run (regs [(0, 5)]) 0xF018).st = 5 ∧ (run (regs [(0, 5)]) 0xF018).dt = 0 := by decide

/-! ## Fetch, faults, host events -/

-- X3, X4, X5, X7, X18
theorem test_fetch_faults : (next (step { State.reset with pc := 0x1000 })).fault = some ⟨.outOfBounds, 0x1000⟩ ∧
    (next (step { State.reset with pc := 0x201 })).fault = some ⟨.outOfBounds, 0x201⟩ ∧
    (next (step { State.reset with pc := 0xFFF })).fault = some ⟨.outOfBounds, 0xFFF⟩ := by decide
theorem test_fetch_last_word : (run { State.reset with pc := 0xFFE } 0x6001).pc = 0x1000 := by decide
theorem test_illegal_word : (run State.reset 0x0123).fault = some ⟨.unimplementedOpcode, 0x0123⟩ ∧
    (next (step State.reset)).fault = some ⟨.unimplementedOpcode, 0⟩ := by decide
theorem test_halted : next (step { State.reset with fault := some ⟨.stackUnderflow, 0x200⟩ }) =
    { State.reset with fault := some ⟨.stackUnderflow, 0x200⟩ } := by decide

-- K10, K14 to K17, L1, L3 to L5; R223, R243, R244
theorem test_tick : (hostTick { State.reset with dt := 3, st := 1 }).dt = 2 ∧ (hostTick { State.reset with dt := 3, st := 1 }).st = 0 ∧
    (hostTick State.reset).dt = 0 := by decide
theorem test_setKey : (hostSetKey 5 true State.reset).isPressed 5 = true ∧ (hostSetKey 5 true State.reset).isPressed 4 = false := by decide
theorem test_reset_event : hostReset ((regs [(1, 9)]).raise ⟨.outOfBounds, 1⟩) = State.reset ∧
    State.reset.mem.readRun 0 5 = [0xF0, 0x90, 0x90, 0x90, 0xF0] ∧ State.reset.mem.read 0x4F = 0x80 ∧ State.reset.mem.read 0x50 = 0 := by decide
theorem test_loadRom : (next (step (hostLoadRom [0x12] State.reset))).pc = 0x200 ∧ (hostLoadRom [0x12, 0x34] State.reset).mem.readRun 0x200 3 = [0x12, 0x34, 0] ∧
    (next (step (hostLoadRom [0x12] State.reset))).fault = none := by decide
theorem test_loadRom_too_large (bytes : List Byte) (h : bytes.length = 3585) :
    hostLoadRom bytes State.reset = State.reset.raise ⟨.romTooLarge, 3585⟩ := by
  simp [hostLoadRom, romFault, Config.romMax, h]
/-- L2, L3, R240: a full image is accepted, one byte more is reported as the fault that is latched. -/
theorem test_loadReport (bytes : List Byte) :
    (bytes.length = 3584 → loadReport bytes = .ok) ∧ (bytes.length = 3585 → loadReport bytes = .fault ⟨.romTooLarge, 3585⟩) := by
  constructor <;> intro h <;> simp [loadReport, romFault, Config.romMax, h]
theorem test_eventReport : eventReport .tick State.reset (hostTick State.reset) = .nothing ∧
    eventReport (.loadRom [0x12]) State.reset (hostLoadRom [0x12] State.reset) = .load .ok ∧
    eventReport .step State.reset (next (step State.reset)) = .step (.fault ⟨.unimplementedOpcode, 0⟩) := by decide
theorem test_ports : framebufferPort { State.reset with fb := setCell clearGrid 2 3 true } 131 = true ∧
    statusPort { State.reset with dt := 4, st := 5 } = (4, 5, none) ∧ faultCode (some ⟨.operandOutOfRange, 16⟩) = 6 ∧
    faultCode none = 0 := by decide +kernel

/-! ## Witnesses: concrete cases that meet the hypotheses of the statements -/

/-- A state that is not the reset state: one call deep, with a word at PC and a key pressed. -/
def sample (w : Nat) : State :=
  ({ regs [(0, 0x22), (1, 0x0F), (2, 0x10)] with sp := 1, stack := State.reset.stack.set 0 0x206, i := 0x300 } : State).withFetchWord 16 w

theorem witness_EncodeRestoresEveryDecodedWord : decode 0x8F1E = .instr (.shl 15 1) := by decide
theorem witness_OpcodeRowsAreDisjointAndDecodeFollowsThem : ∃ i : Instr, decode 0xFF65 = .instr i := ⟨.ldVxMem 15, by decide⟩

theorem witness_StepRunsTheDecodedInstruction :
    ∃ s : State, s.fault = none ∧ s.pc.toNat % 2 = 0 ∧ s.pc.toNat ≤ 0xFFE ∧ s.pc.toNat = 0xFFE ∧
      decode (s.mem.read s.pc.toNat ++ s.mem.read (s.pc.toNat + 1)) = .instr (.ldImm 0 0x01) :=
  ⟨State.withFetchWord { State.reset with pc := 0xFFE } 16 0x6001, by decide⟩

theorem witness_FetchAndDecodeFaultsSetOnlyTheLatch :
    (∃ s : State, s.fault = none ∧ s.pc.toNat = 0x201) ∧ (∃ s : State, s.fault = none ∧ s.pc.toNat = 0x1000) ∧
    ∃ s : State, s.fault = none ∧ s.pc.toNat % 2 = 0 ∧ s.pc.toNat ≤ 0xFFE ∧
      s.mem.read s.pc.toNat ++ s.mem.read (s.pc.toNat + 1) = (0x5121 : Opcode) ∧ decode 0x5121 = .illegal 0x5121 :=
  ⟨⟨{ State.reset with pc := 0x201 }, by decide⟩, ⟨{ State.reset with pc := 0x1000 }, by decide⟩, ⟨sample 0x5121, by decide⟩⟩

theorem witness_HaltedCoreChangesNothingAndReportsTheLatch : ((sample 0x6001).raise ⟨.stackUnderflow, 0x200⟩).fault = some ⟨.stackUnderflow, 0x200⟩ := by decide

theorem witness_FaultingStepChangesOnlyTheLatch :
    (sample 0xE29E).fault = none ∧ step (sample 0xE29E) = .next ((sample 0xE29E).raise ⟨.operandOutOfRange, 0x10⟩) ∧
      ((sample 0xE29E).raise ⟨.operandOutOfRange, 0x10⟩).fault = some ⟨.operandOutOfRange, 0x10⟩ :=
  ⟨by decide, rfl, by decide⟩

theorem witness_EveryStepKeepsTheInvariant : Inv (sample 0x6001) ∧ ∃ t : State, step (sample 0x6001) = .next t :=
  ⟨⟨by decide, by decide, by decide, fun f h => absurd h (by simp [sample, State.withFetchWord, placeWord])⟩, _, rfl⟩

theorem witness_InvariantHoldsInEveryHostRun :
    HostRun false (next (step (hostTick (hostSetKey 3 true (hostLoadRom [0x60, 0x0A] State.reset))))) :=
  .step (.tick (.setKey 3 true (.loadRom [0x60, 0x0A] .start))) rfl

theorem witness_BlockedStepsAreExactlyWaitsWithNoKey :
    (sample 0xF10A).fault = none ∧ (sample 0xF10A).pc.toNat % 2 = 0 ∧ (sample 0xF10A).pc.toNat ≤ 0xFFE ∧
      decode ((sample 0xF10A).mem.read (sample 0xF10A).pc.toNat ++ (sample 0xF10A).mem.read ((sample 0xF10A).pc.toNat + 1)) = .instr (.ldVxK 1) ∧
      (∀ k : Fin 16, (sample 0xF10A).isPressed k = false) ∧
      step (sample 0xF10A) = .next (sample 0xF10A) ∧
      stepReport (sample 0xF10A) (sample 0xF10A) = .blocked :=
  ⟨by decide, by decide, by decide, by decide, by decide, rfl, by decide⟩

theorem witness_CallPushesTheReturnAddressAndJumps : State.reset.sp.val ≤ 15 ∧ ({ State.reset with sp := 15 } : State).sp.val ≤ 15 := by decide
theorem witness_ReturnPopsTheLastReturnAddress :
    (sample 0x00EE).sp.val = (0 : Fin 16).val + 1 ∧ ({ State.reset with sp := 16 } : State).sp.val = (15 : Fin 16).val + 1 := by decide
theorem witness_StackFaultsKeepTheInstructionAddress : ({ State.reset with sp := 16 } : State).sp.val = 16 ∧ State.reset.sp.val = 0 := by decide
theorem witness_CallsThenReturnsRestoreTheCaller :
    State.reset.sp.val + (List.replicate 16 (0x300 : BitVec 12)).length ≤ 16 ∧
      ({ State.reset with sp := 16 } : State).sp.val + ([] : List (BitVec 12)).length ≤ 16 := by decide
theorem witness_destination_not_vf : (0 : Reg) ≠ vf ∧ (14 : Reg) ≠ vf := by decide

theorem witness_RegistersChangeOnlyByDestinationOrFlag :
    ∃ t : State, exec (.addReg 0 1) (sample 0x6001) = .next t ∧ t.getV 0 ≠ (sample 0x6001).getV 0 ∧
      writesFlag (.addReg 0 1) = true ∧ t.pc ≠ (sample 0x6001).pc :=
  ⟨_, rfl, by decide, by decide, by decide⟩

theorem witness_FontAddressIsFiveTimesTheDigit : ((sample 0).getV 1).toNat = 15 ∧ ((sample 0).getV 1).toNat ≤ 15 := by decide
theorem witness_BcdStoresThreeDigits : ({ sample 0x6001 with i := 0xFFD } : State).mem.wf = true ∧ ({ sample 0x6001 with i := 0xFFD } : State).i.toNat ≤ 0xFFD := by decide
theorem witness_StoreRegistersWritesTheInclusiveRange :
    ({ sample 0x6001 with i := 0xFF0 } : State).mem.wf = true ∧ ({ sample 0x6001 with i := 0xFF0 } : State).i.toNat + (15 : Reg).val ≤ 0xFFF := by decide
theorem witness_LoadRegistersReadsTheInclusiveRange : ({ State.reset with i := 0xFFF } : State).i.toNat + (0 : Reg).val ≤ 0xFFF := by decide
theorem witness_AccessPastTheEndFaultsWithNoEffect :
    ({ State.reset with i := 0xFFE } : State).i.toNat + 2 > 0xFFF ∧
    ({ State.reset with i := 0xFF1 } : State).i.toNat + (15 : Reg).val > 0xFFF ∧
    ((1 : Fin 16).val > 0 ∧ ({ State.reset with i := 0x1000 } : State).i.toNat + ((1 : Fin 16).val - 1) > 0xFFF) := by decide
theorem witness_RunCheckAgreesWithTheByteAccesses : runFault 0xFFF 1 = none ∧ runFault 0xFFF 2 = some ⟨.outOfBounds, 0x1000⟩ := by decide
theorem witness_MemoryPrimitivesReadBackWhatWasWritten : (sample 0x6001).mem.wf = true ∧ 0x1000 > 0xFFF ∧ 0xFFF ≤ 0xFFF := by decide
theorem witness_EachPieceOfStateHasItsWriters :
    (∃ t : State, exec (.ldI 0x123) (sample 0) = .next t ∧ t.i ≠ (sample 0).i) ∧
    (∃ t : State, exec (.ldMemVx 0) (sample 0) = .next t ∧ t.mem ≠ (sample 0).mem) ∧
    (∃ t : State, exec (.call 0x300) (sample 0) = .next t ∧ t.stack ≠ (sample 0).stack ∧ t.sp ≠ (sample 0).sp) ∧
    (∃ t : State, exec (.ldDtVx 0) (sample 0) = .next t ∧ t.dt ≠ (sample 0).dt) ∧
    (∃ t : State, exec (.ldStVx 0) (sample 0) = .next t ∧ t.st ≠ (sample 0).st) ∧
    (∃ t : State, exec (.ldVxK 0) ((sample 0).setKeyState 4 true) = .next t ∧ t.key ≠ ((sample 0).setKeyState 4 true).key) ∧
    (∃ t : State, exec (.rnd 0 0) (sample 0) = .next t ∧ t.draws ≠ (sample 0).draws) :=
  ⟨⟨_, rfl, by decide⟩, ⟨_, rfl, by decide⟩, ⟨_, rfl, by decide⟩, ⟨_, rfl, by decide⟩, ⟨_, rfl, by decide⟩, ⟨_, rfl, by decide⟩,
    ⟨_, rfl, by decide⟩⟩
theorem witness_EachPieceOfStateHasItsWriters_display :
    ∃ t : State, exec .cls { sample 0 with fb := setCell clearGrid 3 5 true } = .next t ∧ t.fb ≠ setCell clearGrid 3 5 true :=
  ⟨_, rfl, by decide +kernel⟩
theorem witness_StoredWordIsFetchedAtOnce :
    ({ sample 0 with i := 0xFFE } : State).mem.wf = true ∧ ({ sample 0 with i := 0xFFE } : State).i.toNat % 2 = 0 ∧ 1 ≤ (1 : Reg).val ∧
      ({ sample 0 with i := 0xFFE } : State).i.toNat + (1 : Reg).val ≤ 0xFFF := by decide
theorem witness_DrawStatements :
    (0 : Reg) ≠ vf ∧ (1 : Reg) ≠ vf ∧ (0 : Fin 16).val = 0 ∧
      ((15 : Fin 16).val = 0 ∨ ({ State.reset with i := 0xFF1 } : State).i.toNat + ((15 : Fin 16).val - 1) ≤ 0xFFF) := by decide
theorem witness_CollisionIsTheAggregateOfErasedCells :
    (List.replicate 15 (0xFF : Byte)).length ≤ 15 ∧
      ∃ t : State, exec (.drw 0 1 0) (sample 0) = .next t ∧ t.pc ≠ (sample 0).pc :=
  ⟨by decide, _, rfl, by decide⟩
theorem witness_KeySkipsReadTheKeyState : ((sample 0).getV 1).toNat = (15 : Fin 16).val := by decide
theorem witness_OperandAboveFifteenFaults : ((sample 0).getV 2).toNat = 16 ∧ ((sample 0).getV 2).toNat > 15 := by decide
theorem witness_WaitForKeyTakesTheLowestPressedKey :
    ((sample 0).setKeyState 15 true).isPressed 15 = true ∧ ∀ j : Fin 16, j < 15 → ((sample 0).setKeyState 15 true).isPressed j = false := by decide
theorem witness_LoadRomCopiesAllOrNothing :
    (sample 0).mem.wf = true ∧ (List.replicate 3584 (0xAA : Byte)).length ≤ 3584 ∧ (List.replicate 3585 (0xAA : Byte)).length > 3584 := by
  exact ⟨by decide, Nat.le_of_eq List.length_replicate, Nat.lt_of_lt_of_eq (by decide : 3584 < 3585) List.length_replicate.symm⟩
theorem witness_ReportedFaultIsTheLatchedFault :
    (sample 0xE29E).fault = none ∧ (∃ t : State, runEvent .step (sample 0xE29E) = .next t ∧ t.fault = some ⟨.operandOutOfRange, 0x10⟩) ∧
      (∃ t : State, runEvent .reset ((sample 0).raise ⟨.stackUnderflow, 0x200⟩) = .next t) ∧
      ∃ t : State, runEvent .tick ((sample 0).raise ⟨.stackUnderflow, 0x200⟩) = .next t :=
  ⟨by decide, ⟨_, rfl, by decide⟩, ⟨_, rfl⟩, _, rfl⟩
theorem witness_EndedStateIsAFixedPointOfStep : Ended (sample 0x1200) := by unfold Ended; decide
theorem witness_SoundTimerAndStaleEntriesAreUnobservable :
    AgreeVisible (sample 0xF015) { sample 0xF015 with st := 9, stack := (sample 0xF015).stack.set 1 0x777 } ∧
      (∃ t : State, step (sample 0xF015) = .next t) ∧
      ∃ t : State, step { sample 0xF015 with st := 9, stack := (sample 0xF015).stack.set 1 0x777 } = .next t :=
  ⟨⟨rfl, rfl, rfl, rfl, by decide, rfl, rfl, rfl, rfl, rfl, rfl⟩, ⟨_, rfl⟩, ⟨_, rfl⟩⟩

end Sys2Proof.Tests
end

section
/-! SUPPORT. The decoder, row by row of the opcode table (spec/30_encoding.md R86), and what makes a word illegal. -/

namespace Sys2Proof.Safety

/-! ### A mask keeps the fields it covers (R81) -/

theorem fieldG_and_group (op : Opcode) : fieldG (op &&& 0xF000) = fieldG op := by
  conv_lhs => rw [← encNnn_fields op, encNnn_and_group]
  simp

theorem fieldG_and_low (op : Opcode) : fieldG (op &&& 0xF00F) = fieldG op := by
  conv_lhs => rw [← encXyn_fields op, encXyn_and_low]
  simp

theorem fieldN_and_low (op : Opcode) : fieldN (op &&& 0xF00F) = fieldN op := by
  conv_lhs => rw [← encXyn_fields op, encXyn_and_low]
  simp

theorem fieldG_and_lowByte (op : Opcode) : fieldG (op &&& 0xF0FF) = fieldG op := by
  conv_lhs => rw [← encXkk_fields op, encXkk_and_low]
  simp

theorem fieldKk_and_lowByte (op : Opcode) : fieldKk (op &&& 0xF0FF) = fieldKk op := by
  conv_lhs => rw [← encXkk_fields op, encXkk_and_low]
  simp

/-! ### From a row's mask to the fields the decoder reads -/

/-- A row that fixes the whole word. -/
theorem EncodedAs.of_word {op : Opcode} {i : Instr} (h : decode op = .instr i) : EncodedAs op 0xFFFF fun _ => i := by
  intro op' hop
  have e : op' = op := by rw [← hop]; exact (BitVec.and_allOnes (x := op')).symm
  rw [e, h]

/-- A row that fixes the group only. -/
theorem EncodedAs.of_group {p : Opcode} {i : Opcode → Instr} (g : BitVec 4) (hp : fieldG p = g)
    (h : ∀ op, fieldG op = g → decode op = .instr (i op)) : EncodedAs p 0xF000 i :=
  fun op hop => h op (by rw [← hp, ← hop, fieldG_and_group])

/-- A row that fixes the group and the low four bits. -/
theorem EncodedAs.of_group_n {p : Opcode} {i : Opcode → Instr} (g n : BitVec 4) (hp : fieldG p = g ∧ fieldN p = n)
    (h : ∀ op, fieldG op = g → fieldN op = n → decode op = .instr (i op)) : EncodedAs p 0xF00F i := by
  obtain ⟨rfl, rfl⟩ := hp
  exact fun op hop => h op (by rw [← hop, fieldG_and_low]) (by rw [← hop, fieldN_and_low])

/-- A row that fixes the group and the low byte. -/
theorem EncodedAs.of_group_kk {p : Opcode} {i : Opcode → Instr} (g : BitVec 4) (kk : Byte)
    (hp : fieldG p = g ∧ fieldKk p = kk)
    (h : ∀ op, fieldG op = g → fieldKk op = kk → decode op = .instr (i op)) : EncodedAs p 0xF0FF i := by
  obtain ⟨rfl, rfl⟩ := hp
  exact fun op hop => h op (by rw [← hop, fieldG_and_lowByte]) (by rw [← hop, fieldKk_and_lowByte])

/-! ### The rows of R86, in the table's order -/

theorem encodedAs_cls : EncodedAs 0x00E0 0xFFFF fun _ => .cls := .of_word rfl
theorem encodedAs_ret : EncodedAs 0x00EE 0xFFFF fun _ => .ret := .of_word rfl
theorem encodedAs_jp : EncodedAs 0x1000 0xF000 fun op => .jp (fieldNnn op) :=
  .of_group 0x1 rfl fun op hg => by simp [decode, hg]
theorem encodedAs_call : EncodedAs 0x2000 0xF000 fun op => .call (fieldNnn op) :=
  .of_group 0x2 rfl fun op hg => by simp [decode, hg]
theorem encodedAs_seImm : EncodedAs 0x3000 0xF000 fun op => .seImm (fieldX op) (fieldKk op) :=
  .of_group 0x3 rfl fun op hg => by simp [decode, hg]
theorem encodedAs_sneImm : EncodedAs 0x4000 0xF000 fun op => .sneImm (fieldX op) (fieldKk op) :=
  .of_group 0x4 rfl fun op hg => by simp [decode, hg]
theorem encodedAs_seReg : EncodedAs 0x5000 0xF00F fun op => .seReg (fieldX op) (fieldY op) :=
  .of_group_n 0x5 0x0 ⟨rfl, rfl⟩ fun op hg hn => by simp [decode, hg, hn]
theorem encodedAs_ldImm : EncodedAs 0x6000 0xF000 fun op => .ldImm (fieldX op) (fieldKk op) :=
  .of_group 0x6 rfl fun op hg => by simp [decode, hg]
theorem encodedAs_addImm : EncodedAs 0x7000 0xF000 fun op => .addImm (fieldX op) (fieldKk op) :=
  .of_group 0x7 rfl fun op hg => by simp [decode, hg]
theorem encodedAs_ldReg : EncodedAs 0x8000 0xF00F fun op => .ldReg (fieldX op) (fieldY op) :=
  .of_group_n 0x8 0x0 ⟨rfl, rfl⟩ fun op hg hn => by simp [decode, decodeGroup8, hg, hn]
theorem encodedAs_or : EncodedAs 0x8001 0xF00F fun op => .or (fieldX op) (fieldY op) :=
  .of_group_n 0x8 0x1 ⟨rfl, rfl⟩ fun op hg hn => by simp [decode, decodeGroup8, hg, hn]
theorem encodedAs_and : EncodedAs 0x8002 0xF00F fun op => .and (fieldX op) (fieldY op) :=
  .of_group_n 0x8 0x2 ⟨rfl, rfl⟩ fun op hg hn => by simp [decode, decodeGroup8, hg, hn]
theorem encodedAs_xor : EncodedAs 0x8003 0xF00F fun op => .xor (fieldX op) (fieldY op) :=
  .of_group_n 0x8 0x3 ⟨rfl, rfl⟩ fun op hg hn => by simp [decode, decodeGroup8, hg, hn]
theorem encodedAs_addReg : EncodedAs 0x8004 0xF00F fun op => .addReg (fieldX op) (fieldY op) :=
  .of_group_n 0x8 0x4 ⟨rfl, rfl⟩ fun op hg hn => by simp [decode, decodeGroup8, hg, hn]
theorem encodedAs_sub : EncodedAs 0x8005 0xF00F fun op => .sub (fieldX op) (fieldY op) :=
  .of_group_n 0x8 0x5 ⟨rfl, rfl⟩ fun op hg hn => by simp [decode, decodeGroup8, hg, hn]
theorem encodedAs_shr : EncodedAs 0x8006 0xF00F fun op => .shr (fieldX op) (fieldY op) :=
  .of_group_n 0x8 0x6 ⟨rfl, rfl⟩ fun op hg hn => by simp [decode, decodeGroup8, hg, hn]
theorem encodedAs_subn : EncodedAs 0x8007 0xF00F fun op => .subn (fieldX op) (fieldY op) :=
  .of_group_n 0x8 0x7 ⟨rfl, rfl⟩ fun op hg hn => by simp [decode, decodeGroup8, hg, hn]
theorem encodedAs_shl : EncodedAs 0x800E 0xF00F fun op => .shl (fieldX op) (fieldY op) :=
  .of_group_n 0x8 0xE ⟨rfl, rfl⟩ fun op hg hn => by simp [decode, decodeGroup8, hg, hn]
theorem encodedAs_sneReg : EncodedAs 0x9000 0xF00F fun op => .sneReg (fieldX op) (fieldY op) :=
  .of_group_n 0x9 0x0 ⟨rfl, rfl⟩ fun op hg hn => by simp [decode, hg, hn]
theorem encodedAs_ldI : EncodedAs 0xA000 0xF000 fun op => .ldI (fieldNnn op) :=
  .of_group 0xA rfl fun op hg => by simp [decode, hg]
theorem encodedAs_jpV0 : EncodedAs 0xB000 0xF000 fun op => .jpV0 (fieldNnn op) :=
  .of_group 0xB rfl fun op hg => by simp [decode, hg]
theorem encodedAs_rnd : EncodedAs 0xC000 0xF000 fun op => .rnd (fieldX op) (fieldKk op) :=
  .of_group 0xC rfl fun op hg => by simp [decode, hg]
theorem encodedAs_drw : EncodedAs 0xD000 0xF000 fun op => .drw (fieldX op) (fieldY op) (fieldN op).toFin :=
  .of_group 0xD rfl fun op hg => by simp [decode, hg]
theorem encodedAs_skp : EncodedAs 0xE09E 0xF0FF fun op => .skp (fieldX op) :=
  .of_group_kk 0xE 0x9E ⟨rfl, rfl⟩ fun op hg hk => by simp [decode, decodeGroupE, hg, hk]
theorem encodedAs_sknp : EncodedAs 0xE0A1 0xF0FF fun op => .sknp (fieldX op) :=
  .of_group_kk 0xE 0xA1 ⟨rfl, rfl⟩ fun op hg hk => by simp [decode, decodeGroupE, hg, hk]
theorem encodedAs_ldVxDt : EncodedAs 0xF007 0xF0FF fun op => .ldVxDt (fieldX op) :=
  .of_group_kk 0xF 0x07 ⟨rfl, rfl⟩ fun op hg hk => by simp [decode, decodeGroupF, hg, hk]
theorem encodedAs_ldVxK : EncodedAs 0xF00A 0xF0FF fun op => .ldVxK (fieldX op) :=
  .of_group_kk 0xF 0x0A ⟨rfl, rfl⟩ fun op hg hk => by simp [decode, decodeGroupF, hg, hk]
theorem encodedAs_ldDtVx : EncodedAs 0xF015 0xF0FF fun op => .ldDtVx (fieldX op) :=
  .of_group_kk 0xF 0x15 ⟨rfl, rfl⟩ fun op hg hk => by simp [decode, decodeGroupF, hg, hk]
theorem encodedAs_ldStVx : EncodedAs 0xF018 0xF0FF fun op => .ldStVx (fieldX op) :=
  .of_group_kk 0xF 0x18 ⟨rfl, rfl⟩ fun op hg hk => by simp [decode, decodeGroupF, hg, hk]
theorem encodedAs_addI : EncodedAs 0xF01E 0xF0FF fun op => .addI (fieldX op) :=
  .of_group_kk 0xF 0x1E ⟨rfl, rfl⟩ fun op hg hk => by simp [decode, decodeGroupF, hg, hk]
theorem encodedAs_ldF : EncodedAs 0xF029 0xF0FF fun op => .ldF (fieldX op) :=
  .of_group_kk 0xF 0x29 ⟨rfl, rfl⟩ fun op hg hk => by simp [decode, decodeGroupF, hg, hk]
theorem encodedAs_ldB : EncodedAs 0xF033 0xF0FF fun op => .ldB (fieldX op) :=
  .of_group_kk 0xF 0x33 ⟨rfl, rfl⟩ fun op hg hk => by simp [decode, decodeGroupF, hg, hk]
theorem encodedAs_ldMemVx : EncodedAs 0xF055 0xF0FF fun op => .ldMemVx (fieldX op) :=
  .of_group_kk 0xF 0x55 ⟨rfl, rfl⟩ fun op hg hk => by simp [decode, decodeGroupF, hg, hk]
theorem encodedAs_ldVxMem : EncodedAs 0xF065 0xF0FF fun op => .ldVxMem (fieldX op) :=
  .of_group_kk 0xF 0x65 ⟨rfl, rfl⟩ fun op hg hk => by simp [decode, decodeGroupF, hg, hk]

/-! ### Legal and illegal words (R84, R88) -/

/-- Every row of the table stands for an instruction, with some reading of the operands. -/
theorem opcodeTable_encodedAs : ∀ r ∈ opcodeTable, ∃ i, EncodedAs r.pattern r.mask i := by
  simp only [opcodeTable, rowOf, List.forall_mem_append, List.forall_mem_cons]
  simp only [List.not_mem_nil, false_imp_iff, implies_true, and_true, and_assoc]
  exact ⟨⟨_, encodedAs_cls⟩, ⟨_, encodedAs_ret⟩, ⟨_, encodedAs_jp⟩, ⟨_, encodedAs_call⟩, ⟨_, encodedAs_seImm⟩,
    ⟨_, encodedAs_sneImm⟩, ⟨_, encodedAs_seReg⟩, ⟨_, encodedAs_ldImm⟩, ⟨_, encodedAs_addImm⟩, ⟨_, encodedAs_ldReg⟩,
    ⟨_, encodedAs_or⟩, ⟨_, encodedAs_and⟩, ⟨_, encodedAs_xor⟩, ⟨_, encodedAs_addReg⟩, ⟨_, encodedAs_sub⟩,
    ⟨_, encodedAs_shr⟩, ⟨_, encodedAs_subn⟩, ⟨_, encodedAs_shl⟩, ⟨_, encodedAs_sneReg⟩, ⟨_, encodedAs_ldI⟩,
    ⟨_, encodedAs_jpV0⟩, ⟨_, encodedAs_rnd⟩, ⟨_, encodedAs_drw⟩, ⟨_, encodedAs_skp⟩, ⟨_, encodedAs_sknp⟩,
    ⟨_, encodedAs_ldVxDt⟩, ⟨_, encodedAs_ldVxK⟩, ⟨_, encodedAs_ldDtVx⟩, ⟨_, encodedAs_ldStVx⟩, ⟨_, encodedAs_addI⟩,
    ⟨_, encodedAs_ldF⟩, ⟨_, encodedAs_ldB⟩, ⟨_, encodedAs_ldMemVx⟩, ⟨_, encodedAs_ldVxMem⟩⟩

theorem decode_of_wellFormedWord {op : Opcode} (h : wellFormedWord op = true) : ∃ i : Instr, decode op = .instr i := by
  obtain ⟨r, hr, hsel⟩ := List.any_eq_true.1 h
  obtain ⟨i, hi⟩ := opcodeTable_encodedAs r hr
  exact ⟨i op, hi op (beq_iff_eq.1 hsel)⟩

theorem wellFormedWord_eq_false_of_illegal {op w : Opcode} (h : decode op = .illegal w) : wellFormedWord op = false := by
  refine Bool.eq_false_iff.2 fun hwf => ?_
  obtain ⟨i, hi⟩ := decode_of_wellFormedWord hwf
  cases hi.symm.trans h

/-- An illegal word is reported as itself (R88). -/
theorem decode_illegal_eq {op w : Opcode} (h : decode op = .illegal w) : w = op := by
  unfold decode decodeGroup0 decodeGroup8 decodeGroupE decodeGroupF at h
  repeat' split at h
  all_goals cases h
  all_goals rfl

end Sys2Proof.Safety
end

section
/-! SUPPORT. What an instruction can do to the state (spec/60_exceptions.md R220, R222): each of the 34 instructions ends in
one of the ways of `ExecEffect`. Frames and invariants are read off these ways and look at no instruction again. -/

namespace Sys2Proof.Machine

/-- The faults an instruction can raise (R224, R225, R226, R229). -/
inductive ExecFault (s : State) : FaultRecord → Prop where
  | stackOverflow : ExecFault s ⟨.stackOverflow, s.pc.toNat⟩
  | stackUnderflow : ExecFault s ⟨.stackUnderflow, s.pc.toNat⟩
  | outOfBounds : ExecFault s (outOfBoundsFault (max s.i.toNat 0x1000))
  | operand (x : Reg) (h : 15 < (s.getV x).toNat) : ExecFault s (operandFault (s.getV x))

/-- `ExecEffect s i t`: the ways in which executing `i` in `s` can lead to `t`. A way that writes a piece of state other than
PC and the general registers names the instructions that take it. -/
inductive ExecEffect (s : State) : Instr → State → Prop where
  /-- a fault: the latch alone (R222) -/
  | raise (i : Instr) {f : FaultRecord} (hf : ExecFault s f) : ExecEffect s i (s.raise f)
  /-- the wait for a key: nothing (R205) -/
  | blocked (x : Reg) : ExecEffect s (.ldVxK x) s
  /-- general registers -/
  | writesV (i : Instr) (v : Vector Byte Config.numV) : ExecEffect s i { s with v := v, pc := s.pc + 2 }
  /-- a skip (R110) -/
  | skips (i : Instr) (c : Bool) : ExecEffect s i (s.skipIf c)
  /-- a jump (R113, R114) -/
  | jumps (i : Instr) {w : Word} (hw : w.toNat ≤ 0x10FE) : ExecEffect s i (s.jumpTo w)
  /-- a call with a free stack entry (R112) -/
  | calls (nnn : BitVec 12) (h : s.sp.val < 16) :
      ExecEffect s (.call nnn)
        { s with stack := s.stack.set s.sp.val (s.pc + 2) h, sp := ⟨s.sp.val + 1, Nat.succ_lt_succ h⟩, pc := addrOf nnn }
  /-- a return to the most recent entry (R111) -/
  | returns {n : Nat} (h : n < 16) (hsp : s.sp.val = n + 1) :
      ExecEffect s .ret { s with sp := ⟨n, Nat.lt_succ_of_lt h⟩, pc := s.stack[n] }
  /-- the index register (R160 to R162) -/
  | writesI {i : Instr} (hi : (∃ nnn, i = .ldI nnn) ∨ (∃ x, i = .addI x) ∨ ∃ x, i = .ldF x) (w : Word) :
      ExecEffect s i { s with i := w, pc := s.pc + 2 }
  /-- a run of bytes at I that lies inside memory (R164, R165) -/
  | writesMem {i : Instr} (hi : (∃ x, i = .ldB x) ∨ ∃ x, i = .ldMemVx x) {bytes : List Byte}
      (hrun : s.i.toNat + bytes.length ≤ 0x1000) :
      ExecEffect s i { s with mem := s.mem.writeRun s.i.toNat bytes, pc := s.pc + 2 }
  /-- the display, and VF with it (R180, R182) -/
  | writesFb {i : Instr} (hi : i = .cls ∨ ∃ x y n, i = .drw x y n) (fb : Framebuffer) (v : Vector Byte Config.numV) :
      ExecEffect s i { s with fb := fb, v := v, pc := s.pc + 2 }
  /-- a random byte used up (R143) -/
  | usesRand (x : Reg) (kk : Byte) (v : Vector Byte Config.numV) :
      ExecEffect s (.rnd x kk) { s with draws := s.draws + 1, v := v, pc := s.pc + 2 }
  /-- a key consumed (R205) -/
  | consumesKey (x : Reg) (v : Vector Byte Config.numV) (key : Vector Bool Config.numKeys) :
      ExecEffect s (.ldVxK x) { s with v := v, key := key, pc := s.pc + 2 }
  /-- the delay timer (R207) -/
  | writesDt (x : Reg) : ExecEffect s (.ldDtVx x) { s with dt := s.getV x, pc := s.pc + 2 }
  /-- the sound timer (R208) -/
  | writesSt (x : Reg) : ExecEffect s (.ldStVx x) { s with st := s.getV x, pc := s.pc + 2 }

/-! ### Operands -/

theorem addrOf_toNat (nnn : BitVec 12) : (addrOf nnn).toNat = nnn.toNat := by
  have := nnn.isLt
  simp only [addrOf, BitVec.toNat_setWidth]
  omega

theorem addrOf_toNat_le (nnn : BitVec 12) : (addrOf nnn).toNat ≤ 0xFFF := by
  have := nnn.isLt
  rw [addrOf_toNat]
  omega

/-- The sum of an indexed jump never wraps (R113). -/
theorem indexedTarget_toNat (nnn : BitVec 12) (b : Byte) : (indexedTarget nnn b).toNat = nnn.toNat + b.toNat := by
  have := nnn.isLt
  have := b.isLt
  simp only [indexedTarget, BitVec.toNat_add, addrOf_toNat, BitVec.toNat_setWidth]
  omega

theorem indexedTarget_toNat_le (nnn : BitVec 12) (b : Byte) : (indexedTarget nnn b).toNat ≤ 0x10FE := by
  have := nnn.isLt
  have := b.isLt
  rw [indexedTarget_toNat]
  omega

@[simp] theorem State.length_regsUpTo (s : State) (x : Reg) : (s.regsUpTo x).length = x.val + 1 := by
  have := x.isLt
  simp only [State.regsUpTo, List.length_take, Vector.length_toList, Config.numV]
  omega

/-! ### The instructions that check something first -/

theorem execRet_effect (s : State) : ∃ t, execRet s = .next t ∧ ExecEffect s .ret t := by
  rcases s.pop_cases with ⟨hpop, -⟩ | ⟨n, hn, hsp, hpop⟩
  · exact ⟨_, by rw [execRet, hpop], .raise _ .stackUnderflow⟩
  · exact ⟨_, by rw [execRet, hpop]; rfl, .returns hn hsp⟩

theorem execCall_effect (nnn : BitVec 12) (s : State) : ∃ t, execCall nnn s = .next t ∧ ExecEffect s (.call nnn) t := by
  rcases s.push_cases (s.pc + 2) with ⟨hpush, -⟩ | ⟨h, hpush⟩
  · exact ⟨_, by rw [execCall, hpush], .raise _ .stackOverflow⟩
  · exact ⟨_, by rw [execCall, hpush]; rfl, .calls nnn h⟩

theorem execDrw_effect (x y : Reg) (n : Fin 16) (s : State) :
    ∃ t, execDrw x y n s = .next t ∧ ExecEffect s (.drw x y n) t := by
  rcases runFault_cases s.i n.val with ⟨hrun, -⟩ | ⟨hrun, -⟩
  · exact ⟨_, by rw [execDrw, hrun]; rfl, .writesFb (.inr ⟨x, y, n, rfl⟩) _ _⟩
  · exact ⟨_, by rw [execDrw, hrun], .raise _ .outOfBounds⟩

theorem execLdB_effect (x : Reg) (s : State) : ∃ t, execLdB x s = .next t ∧ ExecEffect s (.ldB x) t := by
  rcases runFault_cases s.i 3 with ⟨hrun, hle⟩ | ⟨hrun, -⟩
  · have hlen : s.i.toNat + (bcdDigits (s.getV x)).length ≤ 0x1000 := by
      simpa [bcdDigits] using hle
    exact ⟨_, by rw [execLdB, hrun]; rfl, .writesMem (.inl ⟨x, rfl⟩) hlen⟩
  · exact ⟨_, by rw [execLdB, hrun], .raise _ .outOfBounds⟩

theorem execLdMemVx_effect (x : Reg) (s : State) : ∃ t, execLdMemVx x s = .next t ∧ ExecEffect s (.ldMemVx x) t := by
  rcases runFault_cases s.i (x.val + 1) with ⟨hrun, hle⟩ | ⟨hrun, -⟩
  · have hlen : s.i.toNat + (s.regsUpTo x).length ≤ 0x1000 := by
      simpa using hle
    exact ⟨_, by rw [execLdMemVx, hrun]; rfl, .writesMem (.inr ⟨x, rfl⟩) hlen⟩
  · exact ⟨_, by rw [execLdMemVx, hrun], .raise _ .outOfBounds⟩

theorem execLdVxMem_effect (x : Reg) (s : State) : ∃ t, execLdVxMem x s = .next t ∧ ExecEffect s (.ldVxMem x) t := by
  rcases runFault_cases s.i (x.val + 1) with ⟨hrun, -⟩ | ⟨hrun, -⟩
  · exact ⟨_, by rw [execLdVxMem, hrun]; rfl, .writesV _ _⟩
  · exact ⟨_, by rw [execLdVxMem, hrun], .raise _ .outOfBounds⟩

theorem execLdF_effect (x : Reg) (s : State) : ∃ t, execLdF x s = .next t ∧ ExecEffect s (.ldF x) t := by
  rcases digitOperand_fault_cases (s.getV x) with ⟨hd, hgt⟩ | ⟨h, hd⟩
  · exact ⟨_, by rw [execLdF, Params.fontDigitOor, hd], .raise _ (.operand x hgt)⟩
  · exact ⟨_, by rw [execLdF, Params.fontDigitOor, hd]; rfl, .writesI (.inr (.inr ⟨x, rfl⟩)) _⟩

theorem execSkp_effect (x : Reg) (s : State) : ∃ t, execSkp x s = .next t ∧ ExecEffect s (.skp x) t := by
  rcases digitOperand_fault_cases (s.getV x) with ⟨hd, hgt⟩ | ⟨h, hd⟩
  · exact ⟨_, by rw [execSkp, Params.keyIndexOor, hd], .raise _ (.operand x hgt)⟩
  · exact ⟨_, by rw [execSkp, Params.keyIndexOor, hd], .skips _ _⟩

theorem execSknp_effect (x : Reg) (s : State) : ∃ t, execSknp x s = .next t ∧ ExecEffect s (.sknp x) t := by
  rcases digitOperand_fault_cases (s.getV x) with ⟨hd, hgt⟩ | ⟨h, hd⟩
  · exact ⟨_, by rw [execSknp, Params.keyIndexOor, hd], .raise _ (.operand x hgt)⟩
  · exact ⟨_, by rw [execSknp, Params.keyIndexOor, hd], .skips _ _⟩

theorem execLdVxK_effect (x : Reg) (s : State) : ∃ t, execLdVxK x s = .next t ∧ ExecEffect s (.ldVxK x) t := by
  rcases s.awaitKey_cases with ⟨hk, -⟩ | ⟨k, hk, -⟩
  · exact ⟨_, by rw [execLdVxK, hk]; rfl, .blocked x⟩
  · exact ⟨_, by rw [execLdVxK, hk]; rfl, .consumesKey x _ _⟩

/-! ### Every instruction -/

/-- Every instruction answers a next state, in one of the ways of `ExecEffect`. -/
theorem exec_effect (i : Instr) (s : State) : ∃ t, exec i s = .next t ∧ ExecEffect s i t := by
  cases i with
  | cls => exact ⟨_, rfl, .writesFb (.inl rfl) _ _⟩
  | ret => exact execRet_effect s
  | jp nnn => exact ⟨_, rfl, .jumps _ ((addrOf_toNat_le nnn).trans (by decide))⟩
  | call nnn => exact execCall_effect nnn s
  | seImm x kk => exact ⟨_, rfl, .skips _ _⟩
  | sneImm x kk => exact ⟨_, rfl, .skips _ _⟩
  | seReg x y => exact ⟨_, rfl, .skips _ _⟩
  | ldImm x kk => exact ⟨_, rfl, .writesV _ _⟩
  | addImm x kk => exact ⟨_, rfl, .writesV _ _⟩
  | ldReg x y => exact ⟨_, rfl, .writesV _ _⟩
  | or x y => exact ⟨_, rfl, .writesV _ _⟩
  | and x y => exact ⟨_, rfl, .writesV _ _⟩
  | xor x y => exact ⟨_, rfl, .writesV _ _⟩
  | addReg x y => exact ⟨_, rfl, .writesV _ _⟩
  | sub x y => exact ⟨_, rfl, .writesV _ _⟩
  | shr x y => exact ⟨_, rfl, .writesV _ _⟩
  | subn x y => exact ⟨_, rfl, .writesV _ _⟩
  | shl x y => exact ⟨_, rfl, .writesV _ _⟩
  | sneReg x y => exact ⟨_, rfl, .skips _ _⟩
  | ldI nnn => exact ⟨_, rfl, .writesI (.inl ⟨nnn, rfl⟩) _⟩
  | jpV0 nnn => exact ⟨_, rfl, .jumps _ (indexedTarget_toNat_le nnn _)⟩
  | rnd x kk => exact ⟨_, rfl, .usesRand x kk _⟩
  | drw x y n => exact execDrw_effect x y n s
  | skp x => exact execSkp_effect x s
  | sknp x => exact execSknp_effect x s
  | ldVxDt x => exact ⟨_, rfl, .writesV _ _⟩
  | ldVxK x => exact execLdVxK_effect x s
  | ldDtVx x => exact ⟨_, rfl, .writesDt x⟩
  | ldStVx x => exact ⟨_, rfl, .writesSt x⟩
  | addI x => exact ⟨_, rfl, .writesI (.inr (.inl ⟨x, rfl⟩)) _⟩
  | ldF x => exact execLdF_effect x s
  | ldB x => exact execLdB_effect x s
  | ldMemVx x => exact execLdMemVx_effect x s
  | ldVxMem x => exact execLdVxMem_effect x s

theorem effect_of_exec {i : Instr} {s t : State} (h : exec i s = .next t) : ExecEffect s i t := by
  obtain ⟨t', h', heff⟩ := exec_effect i s
  rw [h] at h'
  cases h'
  exact heff

/-! ### Every step -/

/-- The faults a step raises before an instruction is executed (R53, R227). -/
theorem fault_of_beginStep {s : State} {f : FaultRecord} (h : beginStep s = .faulted f) :
    (fetchable s.pc = false ∧ f = outOfBoundsFault s.pc.toNat) ∨
    ∃ op, decode op = .illegal op ∧ f = ⟨.unimplementedOpcode, op.toNat⟩ := by
  rcases beginStep_cases s with ⟨_, _, e⟩ | ⟨_, hp, e⟩ | ⟨op, w, _, _, hd, e⟩ | ⟨_, _, _, _, _, _, e⟩ <;> rw [h] at e
  · cases e
  · cases e; exact .inl ⟨hp, rfl⟩
  · cases e
    obtain rfl := Safety.decode_illegal_eq hd
    exact .inr ⟨w, hd, rfl⟩
  · cases e

/-- An instruction is executed only at a PC that can be fetched from (R53, R230). -/
theorem fetchable_of_beginStep_run {s : State} {i : Instr} (h : beginStep s = .run i) : fetchable s.pc = true := by
  rcases beginStep_cases s with ⟨_, _, e⟩ | ⟨_, _, e⟩ | ⟨_, _, _, _, _, e⟩ | ⟨_, _, _, hp, _, _, e⟩ <;> rw [h] at e
  · cases e
  · cases e
  · cases e
  · exact hp

end Sys2Proof.Machine
end

section
/-! SUPPORT. Each piece of state has its writers (spec/00_scope.md R8). -/

namespace Sys2Proof.Proofs

open Sys2Proof.Machine Sys2Proof.Safety

/-- Settles O43: each way in which an instruction can act changes at most the pieces it names, and names its instructions. -/
theorem eachPieceOfStateHasItsWriters : Obligations.EachPieceOfStateHasItsWriters := by
  intro i s t h
  cases effect_of_exec h with
  | raise i hf => simp
  | blocked x => simp
  | writesV i v => simp
  | skips i c => simp
  | jumps i hw => simp
  | calls nnn hfree => simp
  | returns hn hsp => simp
  | writesI hi w => exact ⟨fun _ => hi, by simp⟩
  | writesMem hi hrun => simp [hi]
  | writesFb hi fb v => simp [hi]
  | usesRand x kk v => simp
  | consumesKey x v key => simp
  | writesDt x => simp
  | writesSt x => simp

end Sys2Proof.Proofs
end

section
/-! SUPPORT. The invariant of the machine (`Safety.Inv`): every event a host can send keeps it (spec/00_scope.md R7,
spec/60_exceptions.md R240, R241). -/

namespace Sys2Proof.Safety

open Sys2Proof.Machine

/-! ### Faults that may be latched (R223) -/

/-- The fault of a fetch (R53). -/
theorem latchOk_of_not_fetchable {pc : Word} (h : fetchable pc = false) : LatchOk (outOfBoundsFault pc.toNat) := by
  have hlt := pc.isLt
  have hbad : ¬ (pc.toNat % 2 = 0 ∧ pc.toNat ≤ 0xFFE) := fun hok => by
    rw [(fetchable_iff pc).2 hok] at h
    cases h
  show pc.toNat ≤ 0xFFFF ∧ (pc.toNat % 2 = 1 ∨ pc.toNat > 0xFFE)
  omega

/-- The fault of a decode (R227). -/
theorem latchOk_of_illegal {op : Opcode} (h : decode op = .illegal op) : LatchOk ⟨.unimplementedOpcode, op.toNat⟩ := by
  have hlt := op.isLt
  refine ⟨Nat.le_of_lt_succ hlt, ?_⟩
  rw [BitVec.ofNat_toNat, BitVec.setWidth_eq]
  exact wellFormedWord_eq_false_of_illegal h

/-- The faults an instruction raises at a PC from which it was fetched (R224 to R226, R229). -/
theorem latchOk_of_execFault {s : State} {f : FaultRecord} (hpc : fetchable s.pc = true) (h : ExecFault s f) :
    LatchOk f := by
  have hpc' := (fetchable_iff s.pc).1 hpc
  cases h with
  | stackOverflow => exact hpc'
  | stackUnderflow => exact hpc'
  | outOfBounds =>
    have hlt := s.i.isLt
    show max s.i.toNat 0x1000 ≤ 0xFFFF ∧ (max s.i.toNat 0x1000 % 2 = 1 ∨ max s.i.toNat 0x1000 > 0xFFE)
    omega
  | operand x hx =>
    have hlt := (s.getV x).isLt
    show 16 ≤ (s.getV x).toNat ∧ (s.getV x).toNat ≤ 0xFF
    omega

theorem latchOk_of_beginStep {s : State} {f : FaultRecord} (h : beginStep s = .faulted f) : LatchOk f := by
  rcases fault_of_beginStep h with ⟨hpc, rfl⟩ | ⟨op, hd, rfl⟩
  · exact latchOk_of_not_fetchable hpc
  · exact latchOk_of_illegal hd

/-! ### PC and the return addresses (R23, R111) -/

/-- Past a PC from which an instruction was fetched, PC does not wrap (R23). -/
theorem toNat_pc_add {pc d : Word} (hpc : pc.toNat ≤ 0xFFE) (hd : d.toNat ≤ 4) : (pc + d).toNat = pc.toNat + d.toNat := by
  rw [BitVec.toNat_add]
  omega

/-- A call adds the address after it, which is even and at most 0x1000, to the occupied entries (R112). -/
theorem returnAddresses_push {s : State} (hs : Inv s) (hpc : fetchable s.pc = true) (h : s.sp.val < 16) (j : Fin 16)
    (hj : j.val < s.sp.val + 1) :
    (s.stack.set s.sp.val (s.pc + 2) h)[j].toNat % 2 = 0 ∧ (s.stack.set s.sp.val (s.pc + 2) h)[j].toNat ≤ 0x1000 := by
  obtain ⟨heven, hle⟩ := (fetchable_iff s.pc).1 hpc
  by_cases he : s.sp.val = j.val
  · have hval : (s.pc + 2).toNat = s.pc.toNat + 2 := toNat_pc_add hle (by decide)
    simp only [Fin.getElem_fin, Vector.getElem_set, he, if_true, hval]
    omega
  · simpa [Vector.getElem_set, he] using hs.returnAddresses j (by omega)

/-! ### Every event keeps the invariant -/

theorem inv_reset : Inv State.reset where
  memWf := Memory.wf_reset
  pcBound := by decide
  returnAddresses j hj := absurd hj (Nat.not_lt_zero _)
  latchOk f hf := by cases hf

theorem Inv.raise {s : State} {f : FaultRecord} (hs : Inv s) (hf : LatchOk f) : Inv (s.raise f) where
  memWf := hs.memWf
  pcBound := hs.pcBound
  returnAddresses := hs.returnAddresses
  latchOk g hg := by
    cases hg
    exact hf

theorem Inv.hostReset {s : State} : Inv (hostReset s) := { inv_reset with }

theorem Inv.hostLoadRom {s : State} (hs : Inv s) (bytes : List Byte) : Inv (hostLoadRom bytes s) := by
  rcases romFault_cases bytes with ⟨hlen, -, -, hload⟩ | ⟨hlen, -, -, hload⟩
  · have hfits : 0x200 + bytes.length ≤ Config.memSize := by
      simp only [Config.memSize]
      omega
    rw [hload s]
    exact { hs with memWf := Memory.wf_writeRun s.mem 0x200 bytes hfits hs.memWf }
  · rw [hload s]
    exact hs.raise hlen

theorem Inv.hostTick {s : State} (hs : Inv s) : Inv (hostTick s) := { hs with }

theorem Inv.hostSetKey {s : State} (hs : Inv s) (k : Fin 16) (pressed : Bool) : Inv (hostSetKey k pressed s) :=
  { hs with }

/-- An instruction executed at a PC from which it was fetched keeps the invariant. -/
theorem Inv.of_execEffect {s t : State} {i : Instr} (hs : Inv s) (hpc : fetchable s.pc = true)
    (h : ExecEffect s i t) : Inv t := by
  have hle := ((fetchable_iff s.pc).1 hpc).2
  have hadd {d : Word} (hd : d.toNat ≤ 4) : (s.pc + d).toNat ≤ 0x10FE := by
    rw [toNat_pc_add hle hd]
    omega
  have hnext := hadd (d := 2) (by decide)
  have hskip := hadd (d := 4) (by decide)
  cases h with
  | raise i hf => exact hs.raise (latchOk_of_execFault hpc hf)
  | blocked x => exact hs
  | writesV i v => exact { hs with pcBound := hnext }
  | skips i c => cases c with
    | true => exact { hs with pcBound := hskip }
    | false => exact { hs with pcBound := hnext }
  | jumps i hw => exact { hs with pcBound := hw }
  | calls nnn hfree =>
    exact { hs with
      pcBound := (addrOf_toNat_le nnn).trans (by decide)
      returnAddresses := returnAddresses_push hs hpc hfree }
  | @returns n hn hsp =>
    obtain ⟨-, htop⟩ := hs.returnAddresses ⟨n, hn⟩ (by simp [hsp])
    exact { hs with
      pcBound := htop.trans (by decide)
      returnAddresses := fun j hj => hs.returnAddresses j (hsp ▸ Nat.lt_succ_of_lt hj) }
  | writesI hi w => exact { hs with pcBound := hnext }
  | writesMem hi hrun => exact { hs with pcBound := hnext, memWf := Memory.wf_writeRun _ _ _ hrun hs.memWf }
  | writesFb hi fb v => exact { hs with pcBound := hnext }
  | usesRand x kk v => exact { hs with pcBound := hnext }
  | consumesKey x v key => exact { hs with pcBound := hnext }
  | writesDt x => exact { hs with pcBound := hnext }
  | writesSt x => exact { hs with pcBound := hnext }

theorem Inv.of_step {s t : State} (hs : Inv s) (h : step s = .next t) : Inv t := by
  rcases step_cases s with ⟨f, -, hstep⟩ | ⟨f, -, hbegin, hstep⟩ | ⟨i, -, hbegin, hstep⟩ <;> rw [hstep] at h
  · cases h
    exact hs
  · cases h
    exact hs.raise (latchOk_of_beginStep hbegin)
  · exact hs.of_execEffect (fetchable_of_beginStep_run hbegin) (effect_of_exec h)

end Sys2Proof.Safety

namespace Sys2Proof.Proofs

open Sys2Proof.Machine Sys2Proof.Safety

/-- Settles O13: the invariant holds at reset and every event keeps it. -/
theorem invariantHoldsInEveryHostRun : Obligations.InvariantHoldsInEveryHostRun := by
  intro b s hrun
  induction hrun with
  | start => exact inv_reset
  | reset _ _ => exact .hostReset
  | loadRom bytes _ ih => exact ih.hostLoadRom bytes
  | tick _ ih => exact ih.hostTick
  | setKey k pressed _ ih => exact ih.hostSetKey k pressed
  | step _ hstep ih => exact ih.of_step hstep

end Sys2Proof.Proofs
end

section
/-! SUPPORT. The state after reset (spec/10_state.md R34, spec/70_reset_and_hazards.md R260, R262). -/

namespace Sys2Proof.Machine

/-- Past the 80 bytes of the font table an address resets to 0x00 (R262). -/
theorem resetByte_of_font_le {a : Nat} (h : 80 ≤ a) : resetByte a = 0x00 := by
  have hnot : ¬ (Params.fontBase ≤ a ∧ a < Params.fontBase + Params.font.length) := by
    show ¬ (0 ≤ a ∧ a < 0 + 80)
    omega
  rw [resetByte, if_neg hnot]
  rfl

/-- The font table lies at address 0 after reset (R58, R262). -/
theorem readRun_reset_font : State.reset.mem.readRun 0 80 = Params.font := by decide

end Sys2Proof.Machine

namespace Sys2Proof.Proofs

open Sys2Proof.Machine Sys2Proof.Safety

/-- Settles O11: a halted, a faulting and an executing step each keep the invariant (`Inv.of_step`). -/
theorem everyStepKeepsTheInvariant : Obligations.EveryStepKeepsTheInvariant := fun _ _ hs h => hs.of_step h

/-- Settles O12: memory is empty, PC is 0x200, no entry is occupied and the latch is clear (`inv_reset`). -/
theorem invariantHoldsAtReset : Obligations.InvariantHoldsAtReset := inv_reset

/-- Settles O14: every piece of state but `draws` is that of `State.reset`, whose memory lists nothing and so reads as
`resetByte`. -/
theorem resetLeavesTheListedValues : Obligations.ResetLeavesTheListedValues := by
  refine ⟨rfl, fun s => ⟨rfl, cell_clearGrid, fun r => ?_, rfl, rfl, rfl, rfl, fun k => ?_, rfl, readRun_reset_font,
    fun _ => resetByte_of_font_le⟩⟩
  · exact Vector.getElem_replicate r.isLt
  · exact Vector.getElem_replicate k.isLt

end Sys2Proof.Proofs
end

section
/-! SUPPORT. Calls and returns by the number of occupied stack entries (spec/40_flow.md R111, R112). -/

namespace Sys2Proof.Machine

variable {s : State} {nnn : BitVec 12}

theorem exec_call_of_full (h : s.sp.val = 16) :
    exec (.call nnn) s = .next (s.raise ⟨.stackOverflow, s.pc.toNat⟩) := by
  rcases s.push_cases (s.pc + 2) with ⟨hpush, -⟩ | ⟨hfree, -⟩
  · rw [exec, execCall, hpush]
  · omega

theorem exec_call_of_free (h : s.sp.val < 16) :
    exec (.call nnn) s = .next { s with
      stack := s.stack.set s.sp.val (s.pc + 2) h, sp := ⟨s.sp.val + 1, Nat.succ_lt_succ h⟩, pc := addrOf nnn } := by
  rcases s.push_cases (s.pc + 2) with ⟨-, hfull⟩ | ⟨_, hpush⟩
  · omega
  · rw [exec, execCall, hpush]
    rfl

theorem exec_ret_of_empty (h : s.sp.val = 0) : exec .ret s = .next (s.raise ⟨.stackUnderflow, s.pc.toNat⟩) := by
  rcases s.pop_cases with ⟨hpop, -⟩ | ⟨n, -, hsp, -⟩
  · rw [exec, execRet, hpop]
  · omega

theorem exec_ret_of_sp_eq_succ {n : Nat} (hn : n < 16) (h : s.sp.val = n + 1) :
    exec .ret s = .next { s with sp := ⟨n, Nat.lt_succ_of_lt hn⟩, pc := s.stack[n] } := by
  rcases s.pop_cases with ⟨-, hempty⟩ | ⟨m, hm, hsp, hpop⟩
  · omega
  · obtain rfl : m = n := by omega
    rw [exec, execRet, hpop]
    rfl

end Sys2Proof.Machine

namespace Sys2Proof.Proofs

open Sys2Proof.Machine

/-- Settles O19: a call finds the stack full, a return finds it empty, and each raises its fault with PC as info. -/
theorem stackFaultsKeepTheInstructionAddress : Obligations.StackFaultsKeepTheInstructionAddress :=
  fun _ _ => ⟨exec_call_of_full, exec_ret_of_empty⟩

end Sys2Proof.Proofs
end

section
/-! SUPPORT. What an instruction does to the general registers (spec/10_state.md R21): each of the 34 instructions ends in one
of the ways of `RegEffect`. -/

namespace Sys2Proof.Machine

open Sys2Proof.Safety

/-- `RegEffect s i t`: what executing `i` in `s` does to the general registers of the next state `t`. -/
inductive RegEffect (s : State) (i : Instr) (t : State) : Prop where
  /-- no register is written; a flag writer ends so only at its own address -/
  | keeps (hv : t.v = s.v) (hpc : writesFlag i = true → t.pc = s.pc)
  /-- the destination alone -/
  | destination (hi : writesFlag i = false) (hv : ∀ r, hasDestination i r = false → t.getV r = s.getV r)
  /-- a flag in VF, and nothing else but the destination (R131, R182) -/
  | flag (hi : writesFlag i = true) (hflag : ∃ c, t.getV vf = flagByte c)
      (hv : ∀ r, r ≠ vf → hasDestination i r = false → t.getV r = s.getV r)

variable {s t : State} {i : Instr} {x : Reg}

theorem ne_of_hasDestination (hx : hasDestination i x = true) {r : Reg} (hr : hasDestination i r = false) : r ≠ x := by
  rintro rfl
  simp [hx] at hr

theorem RegEffect.of_setV {b : Byte} (hi : writesFlag i = false) (hx : hasDestination i x = true)
    (hv : t.v = (s.setV x b).v) : RegEffect s i t := by
  refine .destination hi fun r hr => ?_
  rw [State.getV, hv]
  exact State.getV_setV_of_ne s x r b (ne_of_hasDestination hx hr)

/-- The result goes to the destination, the flag to VF (R131). -/
theorem RegEffect.of_setResultAndFlag {b flag : Byte} (hi : writesFlag i = true) (hx : hasDestination i x = true)
    (hflag : ∃ c, flag = flagByte c) : RegEffect s i (s.setResultAndFlag x b flag).advance := by
  rw [State.setResultAndFlag_eq]
  refine .flag hi (by simpa using hflag) fun r hvf hr => ?_
  rw [State.getV_advance, State.getV_setV_of_ne _ _ _ _ hvf,
    State.getV_setV_of_ne _ _ _ _ (ne_of_hasDestination hx hr)]

/-- Every instruction does one of these to the registers. -/
theorem regEffect_of_exec (h : exec i s = .next t) : RegEffect s i t := by
  cases i with
  | cls | jp | seImm | sneImm | seReg | sneReg | ldI | jpV0 | ldDtVx | ldStVx | addI =>
    cases h
    exact .keeps rfl nofun
  | ret =>
    rcases s.pop_cases with ⟨hpop, -⟩ | ⟨n, hn, -, hpop⟩
    all_goals
      simp only [exec, execRet, hpop] at h
      cases h
      exact .keeps rfl nofun
  | call =>
    rcases s.push_cases (s.pc + 2) with ⟨hpush, -⟩ | ⟨hfree, hpush⟩
    all_goals
      simp only [exec, execCall, hpush] at h
      cases h
      exact .keeps rfl nofun
  | ldF | ldB | ldMemVx | skp | sknp =>
    simp only [exec, execLdF, execLdB, execLdMemVx, execSkp, execSknp] at h
    split at h <;> cases h <;> exact .keeps rfl nofun
  | ldImm | addImm | ldReg | or | and | xor | rnd | ldVxDt =>
    cases h
    exact .of_setV rfl (beq_self_eq_true _) rfl
  | ldVxK =>
    simp only [exec, execLdVxK] at h
    split at h <;> cases h
    · exact .keeps rfl nofun
    · exact .of_setV rfl (beq_self_eq_true _) rfl
  | ldVxMem =>
    simp only [exec, execLdVxMem] at h
    split at h <;> cases h
    · exact .keeps rfl nofun
    · refine .destination rfl fun r hr => ?_
      rw [State.getV_advance, State.getV_setI, State.getV_setRegsUpTo, if_neg (of_decide_eq_false hr)]
  | addReg | shr | shl =>
    cases h
    exact .of_setResultAndFlag rfl (beq_self_eq_true _) ⟨_, rfl⟩
  | sub | subn =>
    cases h
    exact .of_setResultAndFlag rfl (beq_self_eq_true _) ⟨_, greaterFlag_eq _ _⟩
  | drw =>
    simp only [exec, execDrw] at h
    split at h <;> cases h
    · exact .keeps rfl fun _ => rfl
    · exact .flag rfl ⟨_, State.getV_setV_same _ _ _⟩ fun r hvf _ => State.getV_setV_of_ne _ _ _ _ hvf

end Sys2Proof.Machine

namespace Sys2Proof.Proofs

open Sys2Proof.Machine Sys2Proof.Safety

/-- Settles O33: whatever an instruction does to the registers, it writes its destination or, as a flag, VF. -/
theorem registersChangeOnlyByDestinationOrFlag : Obligations.RegistersChangeOnlyByDestinationOrFlag := by
  intro i s t h
  cases regEffect_of_exec h with
  | keeps hv hpc =>
    exact ⟨fun r hne => absurd (congrArg (·[r]) hv) hne, fun hi hne => absurd (hpc hi) hne⟩
  | destination hi hv =>
    refine ⟨fun r hne => .inl (Bool.of_not_eq_false fun hr => hne (hv r hr)), fun hi' => ?_⟩
    cases hi.symm.trans hi'
  | flag hi hflag hv =>
    refine ⟨fun r hne => ?_, fun _ _ => ?_⟩
    · by_cases hvf : r = vf
      · exact .inr ⟨hvf, hi⟩
      · exact .inl (Bool.of_not_eq_false fun hr => hne (hv r hvf hr))
    · obtain ⟨c, hc⟩ := hflag
      rw [hc]
      cases c
      · exact .inl rfl
      · exact .inr rfl

end Sys2Proof.Proofs
end

section
/-! SUPPORT. What a program cannot observe (spec/10_state.md R24, R26, R208, R278). Two states that agree on the visible pieces
differ by a `hide`, another sound timer and another stack; a step from a state and from one with these hidden does the same,
because what it reads of the stack is an occupied entry. -/

namespace Sys2Proof.Machine

/-- The state with another sound timer and another stack. -/
def State.hide (s : State) (st : Byte) (stack : Vector Word Config.stackDepth) : State :=
  { s with st := st, stack := stack }

/-- Whether an instruction reads or writes the stack, or writes the sound timer. -/
def touchesHidden : Instr → Bool
  | .call _ | .ret | .ldStVx _ => true
  | _ => false

variable {s t : State} {i : Instr} {st : Byte} {stack : Vector Word Config.stackDepth}

@[simp] theorem State.hide_i : (s.hide st stack).i = s.i := rfl
@[simp] theorem State.getV_hide (x : Reg) : (s.hide st stack).getV x = s.getV x := rfl
@[simp] theorem State.awaitKey_hide : (s.hide st stack).awaitKey = s.awaitKey := rfl
@[simp] theorem beginStep_hide : beginStep (s.hide st stack) = beginStep s := rfl

/-- An instruction that does not touch the hidden pieces does the same with others in their place. -/
theorem exec_hide (hi : touchesHidden i = false) (h : exec i s = .next t) :
    exec i (s.hide st stack) = .next (t.hide st stack) := by
  cases i with
  | call | ret | ldStVx => cases hi
  | ldF | ldB | ldMemVx | ldVxMem | skp | sknp | ldVxK | drw =>
    simp only [exec, execLdF, execLdB, execLdMemVx, execLdVxMem, execSkp, execSknp, execLdVxK, execDrw, State.hide_i,
      State.getV_hide, State.awaitKey_hide] at h ⊢
    split at h <;> cases h <;> rfl
  | _ =>
    cases h
    rfl

theorem sp_stack_of_exec (hi : touchesHidden i = false) (h : exec i s = .next t) : t.sp = s.sp ∧ t.stack = s.stack := by
  cases effect_of_exec h with
  | calls | returns => cases hi
  | _ => exact ⟨rfl, rfl⟩

end Sys2Proof.Machine

namespace Sys2Proof.Safety

open Sys2Proof.Machine

variable {s s' : State} {i : Instr} {st : Byte} {stack : Vector Word Config.stackDepth}

theorem agreeVisible_hide (h : ∀ j : Fin 16, j.val < s.sp.val → stack[j] = s.stack[j]) :
    AgreeVisible s (s.hide st stack) where
  v := rfl
  i := rfl
  pc := rfl
  sp := rfl
  entries := h
  dt := rfl
  fb := rfl
  key := rfl
  mem := rfl
  fault := rfl
  draws := rfl

theorem AgreeVisible.eq_hide (h : AgreeVisible s s') : s' = s.hide s'.st s'.stack := by
  obtain ⟨hv, hi, hpc, hsp, -, hdt, hfb, hkey, hmem, hfault, hdraws⟩ := h
  simp only [State.hide, ← hv, ← hi, ← hpc, ← hsp, ← hdt, ← hfb, ← hkey, ← hmem, ← hfault, ← hdraws]

theorem AgreeVisible.raise (h : AgreeVisible s s') (f : FaultRecord) : AgreeVisible (s.raise f) (s'.raise f) :=
  { h with fault := rfl }

/-- A call pushes the same return address onto both stacks (R112). -/
theorem exec_call_agree (nnn : BitVec 12) (h : AgreeVisible s (s.hide st stack)) :
    ∃ t t', exec (.call nnn) s = .next t ∧ exec (.call nnn) (s.hide st stack) = .next t' ∧ AgreeVisible t t' := by
  rcases s.push_cases (s.pc + 2) with ⟨-, hfull⟩ | ⟨hfree, -⟩
  · exact ⟨_, _, exec_call_of_full hfull, exec_call_of_full hfull, h.raise _⟩
  · refine ⟨_, _, exec_call_of_free hfree, exec_call_of_free (s := s.hide st stack) hfree,
      { h with pc := rfl, sp := rfl, entries := fun j hj => ?_ }⟩
    have hj' : j.val < s.sp.val + 1 := hj
    by_cases he : s.sp.val = j.val
    · simp [State.hide, he]
    · simpa [Vector.getElem_set, State.hide, he] using h.entries j (by omega)

/-- A return takes the most recent entry, an occupied one (R111). -/
theorem exec_ret_agree (h : AgreeVisible s (s.hide st stack)) :
    ∃ t t', exec .ret s = .next t ∧ exec .ret (s.hide st stack) = .next t' ∧ AgreeVisible t t' := by
  rcases s.pop_cases with ⟨-, hempty⟩ | ⟨n, hn, hsp, -⟩
  · exact ⟨_, _, exec_ret_of_empty hempty, exec_ret_of_empty hempty, h.raise _⟩
  · have htop : stack[n] = s.stack[n] := h.entries ⟨n, hn⟩ (by simp [hsp])
    exact ⟨_, _, exec_ret_of_sp_eq_succ hn hsp, exec_ret_of_sp_eq_succ hn hsp,
      { h with pc := htop, sp := rfl, entries := fun j hj => h.entries j (hsp ▸ Nat.lt_succ_of_lt hj) }⟩

theorem exec_agree (i : Instr) (h : AgreeVisible s (s.hide st stack)) :
    ∃ t t', exec i s = .next t ∧ exec i (s.hide st stack) = .next t' ∧ AgreeVisible t t' := by
  cases hi : touchesHidden i with
  | false =>
    obtain ⟨t, ht, -⟩ := exec_effect i s
    obtain ⟨hsp, hstack⟩ := sp_stack_of_exec hi ht
    exact ⟨t, _, ht, exec_hide hi ht, agreeVisible_hide (by rw [hsp, hstack]; exact h.entries)⟩
  | true =>
    cases i with
    | call nnn => exact exec_call_agree nnn h
    | ret => exact exec_ret_agree h
    | ldStVx x => exact ⟨_, _, rfl, rfl, { h with pc := rfl }⟩
    | _ => cases hi

theorem step_agree (h : AgreeVisible s (s.hide st stack)) :
    ∃ t t', step s = .next t ∧ step (s.hide st stack) = .next t' ∧ AgreeVisible t t' := by
  cases hb : beginStep s with
  | halted f => exact ⟨s, s.hide st stack, by simp [step, hb], by simp [step, hb], h⟩
  | faulted f => exact ⟨s.raise f, (s.hide st stack).raise f, by simp [step, hb], by simp [step, hb], h.raise f⟩
  | run i => simpa [step, hb] using exec_agree i h

end Sys2Proof.Safety

namespace Sys2Proof.Proofs

open Sys2Proof.Machine Sys2Proof.Safety

/-- Settles O57: the second state is the first with its hidden pieces replaced, and a step keeps the agreement. -/
theorem soundTimerAndStaleEntriesAreUnobservable : Obligations.SoundTimerAndStaleEntriesAreUnobservable := by
  intro s s' t t' hs h h'
  have hhide := hs.eq_hide
  rw [hhide] at hs h'
  obtain ⟨u, u', hu, hu', hagree⟩ := step_agree hs
  cases hu.symm.trans h
  cases hu'.symm.trans h'
  exact hagree

end Sys2Proof.Proofs
end

section
/-! SUPPORT. MemRead and MemWrite by address (spec/20_memory.md R51, R52). -/

namespace Sys2Proof.Machine

variable {m : Memory} {a : Nat} {b : Byte}

theorem memRead_of_le (h : a ≤ 0xFFF) : memRead m a = .ok (m.read a) := if_neg (Nat.not_lt.2 h)
theorem memRead_of_gt (h : a > 0xFFF) : memRead m a = .error (outOfBoundsFault a) := if_pos h
theorem memWrite_of_le (h : a ≤ 0xFFF) : memWrite m a b = .ok (m.write a b) := if_neg (Nat.not_lt.2 h)
theorem memWrite_of_gt (h : a > 0xFFF) : memWrite m a b = .error (outOfBoundsFault a) := if_pos h

theorem memRead_answers_iff : (∃ b : Byte, memRead m a = .ok b) ↔ a ≤ 0xFFF := by
  rcases Nat.lt_or_ge 0xFFF a with h | h
  · simp [memRead_of_gt h, h]
  · simp [memRead_of_le h, h]

theorem memRead_eq_error_iff {f : FaultRecord} :
    memRead m a = .error f ↔ 0xFFF < a ∧ f = outOfBoundsFault a := by
  rcases Nat.lt_or_ge 0xFFF a with h | h
  · simp [memRead_of_gt h, h, eq_comm]
  · simp [memRead_of_le h, Nat.not_lt.2 h]

end Sys2Proof.Machine

namespace Sys2Proof.Proofs

open Sys2Proof.Machine

/-- Settles O42: the bound check decides both primitives, and inside the bound they are `Memory.read` and `Memory.write`. -/
theorem memoryPrimitivesReadBackWhatWasWritten : Obligations.MemoryPrimitivesReadBackWhatWasWritten := by
  intro m addr b hm
  refine ⟨fun h => ⟨memRead_of_gt h, memWrite_of_gt h⟩, fun h => ⟨memRead_of_le h, m.write addr b, memWrite_of_le h, ?_,
    fun a ha => m.read_write_of_ne addr a b ha, m.wf_write addr b (Nat.lt_succ_of_le h) hm⟩⟩
  rw [memRead_of_le h, m.read_write_same addr b hm]

end Sys2Proof.Proofs
end

section
/-! SUPPORT. The check of a run of bytes at I before an access (spec/20_memory.md R54, R55). -/

namespace Sys2Proof.Machine

variable {i : Word} {count : Nat} {f : FaultRecord}

theorem runFault_eq_none_iff : runFault i count = none ↔ count = 0 ∨ i.toNat + count ≤ 0x1000 := by
  rcases runFault_cases i count with ⟨hrun, hin⟩ | ⟨hrun, hpos, hpast⟩
  · simp [hrun, hin]
  · exact iff_of_false (by simp [hrun]) (by omega)

theorem runFault_eq_some_iff :
    runFault i count = some f ↔
      0 < count ∧ 0x1000 < i.toNat + count ∧ f = outOfBoundsFault (max i.toNat 0x1000) := by
  rcases runFault_cases i count with ⟨hrun, hin⟩ | ⟨hrun, hpos, hpast⟩
  · exact iff_of_false (by simp [hrun]) fun ⟨hpos, hpast, _⟩ => by omega
  · simp [hrun, hpos, hpast, eq_comm]

theorem runFault_of_past (hpos : 0 < count) (hpast : 0x1000 < i.toNat + count) :
    runFault i count = some (outOfBoundsFault (max i.toNat 0x1000)) :=
  runFault_eq_some_iff.2 ⟨hpos, hpast, rfl⟩

/-- A run lies inside memory exactly when each of its addresses does. -/
theorem run_inside_iff {a : Nat} : (count = 0 ∨ a + count ≤ 0x1000) ↔ ∀ k < count, a + k ≤ 0xFFF := by
  constructor
  · intro hin k hk
    omega
  · intro hall
    by_contra hout
    have hlast := hall (count - 1) (by omega)
    omega

/-- The first address of a run at `a` that is out of range is `max a 0x1000` (R55). -/
theorem first_out_of_range_iff {a k : Nat} : (0xFFF < a + k ∧ ∀ j < k, a + j ≤ 0xFFF) ↔ a + k = max a 0x1000 := by
  constructor
  · rintro ⟨hout, hbefore⟩
    rcases Nat.eq_zero_or_pos k with rfl | hk
    · omega
    · have hprev := hbefore (k - 1) (by omega)
      omega
  · intro hk
    exact ⟨by omega, fun j hj => by omega⟩

end Sys2Proof.Machine

namespace Sys2Proof.Proofs

open Sys2Proof.Machine

/-- Settles O41: a run that passes is inside memory byte by byte, and one that fails does so first at `max(I, 0x1000)`. -/
theorem runCheckAgreesWithTheByteAccesses : Obligations.RunCheckAgreesWithTheByteAccesses := by
  intro i count m
  simp only [memRead_answers_iff, memRead_eq_error_iff]
  refine ⟨runFault_eq_none_iff.trans run_inside_iff, fun f => runFault_eq_some_iff.trans ⟨?_, ?_⟩⟩
  · rintro ⟨hpos, hpast, rfl⟩
    have hfirst : i.toNat + (max i.toNat 0x1000 - i.toNat) = max i.toNat 0x1000 := by omega
    obtain ⟨hout, hbefore⟩ := first_out_of_range_iff.2 hfirst
    exact ⟨max i.toNat 0x1000 - i.toNat, by omega, ⟨hout, by rw [hfirst]⟩, hbefore⟩
  · rintro ⟨k, hk, ⟨hout, rfl⟩, hbefore⟩
    have hfirst := first_out_of_range_iff.1 ⟨hout, hbefore⟩
    exact ⟨by omega, by omega, by rw [hfirst]⟩

end Sys2Proof.Proofs
end

section
/-! SUPPORT. The four instructions that access memory at I, when the run reaches past 0xFFF (spec/20_memory.md R55,
spec/60_exceptions.md R222), and Fx55 when it does not (spec/42_index_memory.md R165). -/

namespace Sys2Proof.Machine

variable {s : State} {x y : Reg} {n : Fin 16} {f : FaultRecord}

theorem exec_ldB_of_runFault (h : runFault s.i 3 = some f) : exec (.ldB x) s = .next (s.raise f) := by
  rw [exec, execLdB, h]

theorem exec_ldMemVx_of_runFault (h : runFault s.i (x.val + 1) = some f) :
    exec (.ldMemVx x) s = .next (s.raise f) := by
  rw [exec, execLdMemVx, h]

theorem exec_ldVxMem_of_runFault (h : runFault s.i (x.val + 1) = some f) :
    exec (.ldVxMem x) s = .next (s.raise f) := by
  rw [exec, execLdVxMem, h]

theorem exec_drw_of_runFault (h : runFault s.i n.val = some f) : exec (.drw x y n) s = .next (s.raise f) := by
  rw [exec, execDrw, h]

/-- Fx55 inside memory stores V[0] to V[x] at I and leaves I (LOADSTORE_INCREMENTS_I = false). -/
theorem exec_ldMemVx_of_inside (h : s.i.toNat + x.val ≤ 0xFFF) :
    exec (.ldMemVx x) s = .next { s with mem := s.mem.writeRun s.i.toNat (s.regsUpTo x) }.advance := by
  have hrun : runFault s.i (x.val + 1) = none := runFault_eq_none_iff.2 (.inr (by omega))
  rw [exec, execLdMemVx, hrun]
  rfl

theorem State.getElem_regsUpTo (s : State) (x r : Reg) (h : r.val < (s.regsUpTo x).length) :
    (s.regsUpTo x)[r.val] = s.getV r := by
  simp [State.regsUpTo, State.getV]

/-- Fx55 inside memory leaves V[r] at I + r, for every r up to x (R165). -/
theorem read_writeRun_regsUpTo (hm : s.mem.wf = true) (h : s.i.toNat + x.val ≤ 0xFFF) {r : Reg} (hr : r.val ≤ x.val) :
    (s.mem.writeRun s.i.toNat (s.regsUpTo x)).read (s.i.toNat + r.val) = s.getV r := by
  have hlen := s.length_regsUpTo x
  rw [Memory.read_writeRun_inside _ _ _ _ (by omega) (by simp only [Config.memSize]; omega) hm, State.getElem_regsUpTo]

end Sys2Proof.Machine

namespace Sys2Proof.Proofs

open Sys2Proof.Machine

/-- Settles O40: each of the four checks its whole run first, and a failed check only raises the fault. -/
theorem accessPastTheEndFaultsWithNoEffect : Obligations.AccessPastTheEndFaultsWithNoEffect := by
  intro x y n s
  refine ⟨fun h => exec_ldB_of_runFault (runFault_of_past (by omega) (by omega)), fun h => ?_,
    fun hn h => exec_drw_of_runFault (runFault_of_past hn (by omega))⟩
  have hrun := runFault_of_past (i := s.i) (Nat.succ_pos x.val) (by omega)
  exact ⟨exec_ldMemVx_of_runFault hrun, exec_ldVxMem_of_runFault hrun⟩

end Sys2Proof.Proofs
end

section
/-! SUPPORT. The fetch by PC, and the steps that end at the fetch or the decode (spec/20_memory.md R53,
spec/60_exceptions.md R230). -/

namespace Sys2Proof.Machine

variable {s : State}

theorem fetchable_eq_false_iff {pc : Word} : fetchable pc = false ↔ pc.toNat % 2 = 1 ∨ pc.toNat > 0xFFE := by
  rw [← Bool.not_eq_true, fetchable_iff]
  omega

theorem fetch_of_fetchable (h : fetchable s.pc = true) :
    fetch s = .ok (s.mem.read s.pc.toNat ++ s.mem.read (s.pc.toNat + 1)) := by
  rcases fetch_cases s with ⟨-, hok⟩ | ⟨hno, -⟩
  · exact hok
  · cases h.symm.trans hno

theorem fetch_of_not_fetchable (h : fetchable s.pc = false) : fetch s = .error (outOfBoundsFault s.pc.toNat) := by
  rcases fetch_cases s with ⟨hyes, -⟩ | ⟨-, herr⟩
  · cases h.symm.trans hyes
  · exact herr

theorem step_of_fetch_error {f : FaultRecord} (hs : s.fault = none) (h : fetch s = .error f) :
    step s = .next (s.raise f) := by
  simp [step, beginStep, hs, h]

theorem step_of_illegal {op w : Opcode} (hs : s.fault = none) (h : fetch s = .ok op) (hd : decode op = .illegal w) :
    step s = .next (s.raise ⟨.unimplementedOpcode, w.toNat⟩) := by
  simp [step, beginStep, hs, h, hd]

end Sys2Proof.Machine

namespace Sys2Proof.Proofs

open Sys2Proof.Machine

/-- Settles O7: the fetch refuses such a PC, and at any other PC the decoder refuses the fetched word; the step raises it. -/
theorem fetchAndDecodeFaultsSetOnlyTheLatch : Obligations.FetchAndDecodeFaultsSetOnlyTheLatch := by
  intro s hs
  refine ⟨fun hpc => ?_, ?_⟩
  · exact step_of_fetch_error hs (fetch_of_not_fetchable (fetchable_eq_false_iff.2 hpc))
  · rintro op heven hle rfl hd
    exact step_of_illegal hs (fetch_of_fetchable ((fetchable_iff s.pc).2 ⟨heven, hle⟩)) hd

/-- Settles O44: Fx55 leaves V[0] at I and V[1] at I + 1, and the fetch at I reads these two bytes. -/
theorem storedWordIsFetchedAtOnce : Obligations.StoredWordIsFetchedAtOnce := by
  intro x s hm heven hx hle
  refine ⟨_, exec_ldMemVx_of_inside hle, ?_⟩
  have hpc : fetchable s.i = true := (fetchable_iff s.i).2 ⟨heven, by omega⟩
  have hhi := read_writeRun_regsUpTo hm hle (r := 0) (Nat.zero_le _)
  have hlo := read_writeRun_regsUpTo hm hle (r := 1) hx
  rw [fetch_of_fetchable hpc]
  exact congrArg Except.ok (congrArg₂ (· ++ ·) hhi hlo)

end Sys2Proof.Proofs
end

section
/-! SUPPORT. The encoder against the decoder (spec/30_encoding.md R84, R86, R90): each gives back what the other was given. -/

namespace Sys2Proof.Safety

open Sys2Proof.Laws

/-! ### The word of an instruction is decoded by the row of that instruction -/

/-- The word of an instruction has the fixed bits of its row (R86). -/
theorem rowOf_selects_encode : ∀ i : Instr, (rowOf i).selects (encode i) = true
  | .cls => RowMatch.cls
  | .ret => RowMatch.ret
  | .jp nnn => RowMatch.jp nnn
  | .call nnn => RowMatch.call nnn
  | .seImm x kk => RowMatch.seImm x kk
  | .sneImm x kk => RowMatch.sneImm x kk
  | .seReg x y => RowMatch.seReg x y
  | .ldImm x kk => RowMatch.ldImm x kk
  | .addImm x kk => RowMatch.addImm x kk
  | .ldReg x y => RowMatch.ldReg x y
  | .or x y => RowMatch.or x y
  | .and x y => RowMatch.and x y
  | .xor x y => RowMatch.xor x y
  | .addReg x y => RowMatch.addReg x y
  | .sub x y => RowMatch.sub x y
  | .shr x y => RowMatch.shr x y
  | .subn x y => RowMatch.subn x y
  | .shl x y => RowMatch.shl x y
  | .sneReg x y => RowMatch.sneReg x y
  | .ldI nnn => RowMatch.ldI nnn
  | .jpV0 nnn => RowMatch.jpV0 nnn
  | .rnd x kk => RowMatch.rnd x kk
  | .drw x y n => RowMatch.drw x y n
  | .skp x => RowMatch.skp x
  | .sknp x => RowMatch.sknp x
  | .ldVxDt x => RowMatch.ldVxDt x
  | .ldVxK x => RowMatch.ldVxK x
  | .ldDtVx x => RowMatch.ldDtVx x
  | .ldStVx x => RowMatch.ldStVx x
  | .addI x => RowMatch.addI x
  | .ldF x => RowMatch.ldF x
  | .ldB x => RowMatch.ldB x
  | .ldMemVx x => RowMatch.ldMemVx x
  | .ldVxMem x => RowMatch.ldVxMem x

@[simp] theorem toFin_nibble (n : Fin 16) : (nibble n).toFin = n := rfl

theorem encode_and_mask (i : Instr) : encode i &&& (rowOf i).mask = (rowOf i).pattern :=
  beq_iff_eq.1 (rowOf_selects_encode i)

/-- An instruction is read back from its word by a row that selects the word, as its own row does, and that reads the operands
where the encoder puts them (R81). -/
theorem EncodedAs.decode_encode {p m : Opcode} {i : Instr} {read : Opcode → Instr} (hrow : EncodedAs p m read)
    (hsel : encode i &&& m = p := by exact encode_and_mask _) (hread : read (encode i) = i := by simp [encode]) :
    decode (encode i) = .instr i := by
  rw [hrow _ hsel, hread]

theorem decode_encode (i : Instr) : decode (encode i) = .instr i := by
  cases i with
  | cls => exact encodedAs_cls.decode_encode
  | ret => exact encodedAs_ret.decode_encode
  | jp nnn => exact encodedAs_jp.decode_encode
  | call nnn => exact encodedAs_call.decode_encode
  | seImm x kk => exact encodedAs_seImm.decode_encode
  | sneImm x kk => exact encodedAs_sneImm.decode_encode
  | seReg x y => exact encodedAs_seReg.decode_encode
  | ldImm x kk => exact encodedAs_ldImm.decode_encode
  | addImm x kk => exact encodedAs_addImm.decode_encode
  | ldReg x y => exact encodedAs_ldReg.decode_encode
  | or x y => exact encodedAs_or.decode_encode
  | and x y => exact encodedAs_and.decode_encode
  | xor x y => exact encodedAs_xor.decode_encode
  | addReg x y => exact encodedAs_addReg.decode_encode
  | sub x y => exact encodedAs_sub.decode_encode
  | shr x y => exact encodedAs_shr.decode_encode
  | subn x y => exact encodedAs_subn.decode_encode
  | shl x y => exact encodedAs_shl.decode_encode
  | sneReg x y => exact encodedAs_sneReg.decode_encode
  | ldI nnn => exact encodedAs_ldI.decode_encode
  | jpV0 nnn => exact encodedAs_jpV0.decode_encode
  | rnd x kk => exact encodedAs_rnd.decode_encode
  | drw x y n => exact encodedAs_drw.decode_encode
  | skp x => exact encodedAs_skp.decode_encode
  | sknp x => exact encodedAs_sknp.decode_encode
  | ldVxDt x => exact encodedAs_ldVxDt.decode_encode
  | ldVxK x => exact encodedAs_ldVxK.decode_encode
  | ldDtVx x => exact encodedAs_ldDtVx.decode_encode
  | ldStVx x => exact encodedAs_ldStVx.decode_encode
  | addI x => exact encodedAs_addI.decode_encode
  | ldF x => exact encodedAs_ldF.decode_encode
  | ldB x => exact encodedAs_ldB.decode_encode
  | ldMemVx x => exact encodedAs_ldMemVx.decode_encode
  | ldVxMem x => exact encodedAs_ldVxMem.decode_encode

/-- The decoder reads an instruction from the bytes of its word and leaves the bytes that follow (R80). -/
theorem decodeBytes_bytesOfWord_append {op : Opcode} {i : Instr} (h : decode op = .instr i) (rest : List Byte) :
    decodeBytes (bytesOfWord op ++ rest) = .instr i rest := by
  simp [bytesOfWord, decodeBytes, h]

/-! ### The instruction of a word is encoded by that word -/

variable {op : Opcode} {i : Instr}

theorem encNnn_of_fieldG {g : BitVec 4} (hg : (fieldG op).toNat = g.toNat) : encNnn g (fieldNnn op) = op := by
  rw [← BitVec.eq_of_toNat_eq hg, encNnn_fields]

theorem encXkk_of_fieldG {g : BitVec 4} (hg : (fieldG op).toNat = g.toNat) :
    encXkk g (fieldX op) (fieldKk op) = op := by
  rw [← BitVec.eq_of_toNat_eq hg, encXkk_fields]

theorem encXkk_of_fields {g : BitVec 4} {kk : Byte} (hg : (fieldG op).toNat = g.toNat)
    (hkk : (fieldKk op).toNat = kk.toNat) : encXkk g (fieldX op) kk = op := by
  rw [← BitVec.eq_of_toNat_eq hkk, encXkk_of_fieldG hg]

theorem encXyn_of_fields {g n : BitVec 4} (hg : (fieldG op).toNat = g.toNat) (hn : (fieldN op).toNat = n.toNat) :
    encXyn g (fieldX op) (fieldY op) n = op := by
  rw [← BitVec.eq_of_toNat_eq hg, ← BitVec.eq_of_toNat_eq hn, encXyn_fields]

theorem encode_of_decodeGroup0 (h : decodeGroup0 op = .instr i) : encode i = op := by
  unfold decodeGroup0 at h
  split_ifs at h with hcls hret
  · cases h; exact hcls.symm
  · cases h; exact hret.symm

theorem encode_of_decodeGroup8 (hg : (fieldG op).toNat = 0x8) (h : decodeGroup8 op = .instr i) : encode i = op := by
  unfold decodeGroup8 at h
  split at h <;> cases h
  all_goals exact encXyn_of_fields hg ‹_›

theorem encode_of_decodeGroupE (hg : (fieldG op).toNat = 0xE) (h : decodeGroupE op = .instr i) : encode i = op := by
  unfold decodeGroupE at h
  split at h <;> cases h
  all_goals exact encXkk_of_fields hg ‹_›

theorem encode_of_decodeGroupF (hg : (fieldG op).toNat = 0xF) (h : decodeGroupF op = .instr i) : encode i = op := by
  unfold decodeGroupF at h
  split at h <;> cases h
  all_goals exact encXkk_of_fields hg ‹_›

/-- By the groups of R84, in order from 0 to F: the format of a group holds the fields that its branch tests and reads (R82). -/
theorem encode_of_decode (h : decode op = .instr i) : encode i = op := by
  have hlt := (fieldG op).isLt
  unfold decode at h
  interval_cases hg : (fieldG op).toNat
  · exact encode_of_decodeGroup0 h
  · cases h; exact encNnn_of_fieldG hg
  · cases h; exact encNnn_of_fieldG hg
  · cases h; exact encXkk_of_fieldG hg
  · cases h; exact encXkk_of_fieldG hg
  · split_ifs at h with hn
    cases h; exact encXyn_of_fields hg (congrArg BitVec.toNat hn)
  · cases h; exact encXkk_of_fieldG hg
  · cases h; exact encXkk_of_fieldG hg
  · exact encode_of_decodeGroup8 hg h
  · split_ifs at h with hn
    cases h; exact encXyn_of_fields hg (congrArg BitVec.toNat hn)
  · cases h; exact encNnn_of_fieldG hg
  · cases h; exact encNnn_of_fieldG hg
  · cases h; exact encXkk_of_fieldG hg
  · cases h; exact encXyn_of_fields hg rfl
  · exact encode_of_decodeGroupE hg h
  · exact encode_of_decodeGroupF hg h

end Sys2Proof.Safety

namespace Sys2Proof.Proofs

open Sys2Proof.Safety

/-- Settles O1: the word of an instruction is selected by its row, the decoder follows that row and reads the operands where
the encoder put them; the two bytes are those of the word. -/
theorem decodeReadsEveryEncodedInstruction : Obligations.DecodeReadsEveryEncodedInstruction :=
  fun i rest => ⟨decode_encode i, decodeBytes_bytesOfWord_append (decode_encode i) rest⟩

/-- Settles O2: branch by branch, the fields that the decoder tests and those that it reads as operands are the whole word. -/
theorem encodeRestoresEveryDecodedWord : Obligations.EncodeRestoresEveryDecodedWord :=
  fun _ _ => encode_of_decode

/-- Settles O5: the decoder is run on each word. -/
theorem specExampleWordsDecode : Obligations.SpecExampleWordsDecode := by
  unfold Obligations.SpecExampleWordsDecode
  decide

end Sys2Proof.Proofs
end

section
/-! SUPPORT. Which words the opcode table selects, and which it leaves (spec/30_encoding.md R84, R86, R88). -/

namespace Sys2Proof.Safety

variable {op : Opcode}

/-! ### The rows -/

theorem rowOf_mem_opcodeTable (i : Instr) : rowOf i ∈ opcodeTable := by
  cases i <;> simp [opcodeTable, rowOf]

/-- A decoded instruction's row selects the word, which is that instruction's word. -/
theorem rowOf_selects_of_decode {i : Instr} (h : decode op = .instr i) : (rowOf i).selects op = true := by
  rw [← encode_of_decode h]
  exact rowOf_selects_encode i

theorem wellFormedWord_of_decode {i : Instr} (h : decode op = .instr i) : wellFormedWord op = true :=
  List.any_eq_true.2 ⟨rowOf i, rowOf_mem_opcodeTable i, rowOf_selects_of_decode h⟩

/-- Two rows that select one word agree on the bits that both fix. -/
theorem pattern_and_mask_of_selects {r q : OpcodeRow} (hr : r.selects op = true) (hq : q.selects op = true) :
    r.pattern &&& q.mask = q.pattern &&& r.mask := by
  rw [← beq_iff_eq.1 hr, ← beq_iff_eq.1 hq, BitVec.and_assoc, BitVec.and_assoc, BitVec.and_comm r.mask]

/-- Any two rows of the table differ on a bit that both fix. -/
theorem opcodeTable_pairwise_differ : opcodeTable.Pairwise fun r q => r.pattern &&& q.mask ≠ q.pattern &&& r.mask := by
  decide

/-! ### The illegal words, group by group (R88) -/

theorem decodeGroup0_eq_illegal_iff : decodeGroup0 op = .illegal op ↔ op ≠ 0x00E0 ∧ op ≠ 0x00EE := by
  unfold decodeGroup0
  split_ifs <;> simp_all

theorem decodeGroup8_eq_illegal_iff :
    decodeGroup8 op = .illegal op ↔ op.toNat % 0x10 ∈ [0x8, 0x9, 0xA, 0xB, 0xC, 0xD, 0xF] := by
  have hlt := (fieldN op).isLt
  unfold decodeGroup8
  rw [fieldN_toNat] at hlt ⊢
  generalize op.toNat % 0x10 = n at hlt ⊢
  interval_cases n <;> simp

theorem decodeGroupE_eq_illegal_iff : decodeGroupE op = .illegal op ↔ op.toNat % 0x100 ∉ [0x9E, 0xA1] := by
  unfold decodeGroupE
  rw [fieldKk_toNat]
  split <;> simp_all

theorem decodeGroupF_eq_illegal_iff : decodeGroupF op = .illegal op ↔
    op.toNat % 0x100 ∉ [0x07, 0x0A, 0x15, 0x18, 0x1E, 0x29, 0x33, 0x55, 0x65] := by
  unfold decodeGroupF
  rw [fieldKk_toNat]
  split <;> simp_all

/-- What the groups 5 and 9 require (R85), as a number. -/
theorem fieldN_eq_zero_iff : fieldN op = 0#4 ↔ op.toNat % 0x10 = 0 := by
  rw [BitVec.toNat_eq, fieldN_toNat]
  rfl

theorem decode_eq_illegal_or_instr (op : Opcode) : decode op = .illegal op ∨ ∃ i : Instr, decode op = .instr i := by
  cases h : decode op with
  | instr i => exact .inr ⟨i, rfl⟩
  | illegal w => exact .inl (congrArg _ (decode_illegal_eq h))

end Sys2Proof.Safety

namespace Sys2Proof.Proofs

open Sys2Proof.Safety

/-- Settles O3: of each of the 16 groups, the words the decoder refuses. -/
theorem illegalWordsAreExactlyTheListed : Obligations.IllegalWordsAreExactlyTheListed := by
  refine fun op => ⟨?_, decode_eq_illegal_or_instr op⟩
  have hlt := (fieldG op).isLt
  unfold decode
  rw [fieldG_toNat] at hlt ⊢
  generalize op.toNat / 0x1000 = g at hlt ⊢
  interval_cases g <;>
    simp [decodeGroup0_eq_illegal_iff, decodeGroup8_eq_illegal_iff, decodeGroupE_eq_illegal_iff,
      decodeGroupF_eq_illegal_iff, fieldN_eq_zero_iff, -List.mem_cons]

/-- Settles O4: two rows differ on a bit that both fix, and a decoded instruction's own row selects the word. -/
theorem opcodeRowsAreDisjointAndDecodeFollowsThem : Obligations.OpcodeRowsAreDisjointAndDecodeFollowsThem := by
  refine ⟨opcodeTable_pairwise_differ.imp fun hne op ⟨hr, hq⟩ => hne (pattern_and_mask_of_selects hr hq), fun op => ?_⟩
  exact ⟨⟨decode_of_wellFormedWord, fun ⟨_, h⟩ => wellFormedWord_of_decode h⟩, fun _ => rowOf_selects_of_decode⟩

end Sys2Proof.Proofs
end

section
/-! SUPPORT. Frames piece by piece (spec/00_scope.md R8), for the updates with which an instruction can end. -/

namespace Sys2Proof.Safety

open Sys2Proof.Machine

variable {s t : State} {ps : List Part}

/-- A frame, written out over the pieces of state. -/
theorem onlyChanges_iff : OnlyChanges ps s t ↔
    (.v ∉ ps → ∀ r : Reg, t.getV r = s.getV r) ∧ (.i ∉ ps → t.i = s.i) ∧ (.pc ∉ ps → t.pc = s.pc) ∧
    (.stack ∉ ps → t.stack = s.stack) ∧ (.sp ∉ ps → t.sp = s.sp) ∧ (.dt ∉ ps → t.dt = s.dt) ∧
    (.st ∉ ps → t.st = s.st) ∧ (.fb ∉ ps → t.fb = s.fb) ∧ (.key ∉ ps → t.key = s.key) ∧
    (.mem ∉ ps → ∀ a : Nat, t.mem.read a = s.mem.read a) ∧ (.fault ∉ ps → t.fault = s.fault) ∧
    (.draws ∉ ps → t.draws = s.draws) := by
  refine ⟨fun h => ⟨h .v, h .i, h .pc, h .stack, h .sp, h .dt, h .st, h .fb, h .key, h .mem, h .fault, h .draws⟩, ?_⟩
  rintro ⟨hv, hi, hpc, hstack, hsp, hdt, hst, hfb, hkey, hmem, hfault, hdraws⟩ p
  cases p <;> assumption

theorem OnlyChanges.refl (ps : List Part) (s : State) : OnlyChanges ps s s := by
  simp [onlyChanges_iff]

theorem OnlyChanges.mono {qs : List Part} (h : OnlyChanges ps s t) (hsub : ps ⊆ qs) : OnlyChanges qs s t :=
  fun p hp => h p fun hmem => hp (hsub hmem)

theorem OnlyChanges.trans {u : State} (hst : OnlyChanges ps s t) (htu : OnlyChanges ps t u) : OnlyChanges ps s u := by
  intro p hp
  have h1 := hst p hp
  have h2 := htu p hp
  cases p with
  | v => exact fun r => (h2 r).trans (h1 r)
  | mem => exact fun a => (h2 a).trans (h1 a)
  | i | pc | stack | sp | dt | st | fb | key | fault | draws => exact Eq.trans h2 h1

/-- A piece of state that ends as it began need not be listed. -/
theorem OnlyChanges.of_restored {p : Part} (h : OnlyChanges (p :: ps) s t) (hp : p.Same s t) : OnlyChanges ps s t := by
  intro q hq
  by_cases he : q = p
  · exact he ▸ hp
  · exact h q (List.not_mem_cons_of_ne_of_not_mem he hq)

theorem onlyChanges_jumpTo (s : State) (w : Word) : OnlyChanges [.pc] s (s.jumpTo w) := by
  simp [onlyChanges_iff]

theorem onlyChanges_skipIf (s : State) (c : Bool) : OnlyChanges [.pc] s (s.skipIf c) := by
  simp [onlyChanges_iff]

end Sys2Proof.Safety
end

section
/-! SUPPORT. Jumps and skips (spec/40_flow.md R113 to R118). -/

namespace Sys2Proof.Machine

/-- A skip on equal bytes compares all 8 bits (R115, R117). -/
theorem State.skipIf_beq_pc (s : State) (a b : Byte) :
    (s.skipIf (a == b)).pc = if a.toNat = b.toNat then s.pc + 4 else s.pc + 2 := by
  simp [BitVec.toNat_inj]

/-- A skip on different bytes compares all 8 bits (R116, R118). -/
theorem State.skipIf_bne_pc (s : State) (a b : Byte) :
    (s.skipIf (a != b)).pc = if a.toNat ≠ b.toNat then s.pc + 4 else s.pc + 2 := by
  simp [BitVec.toNat_inj]

end Sys2Proof.Machine

namespace Sys2Proof.Proofs

open Sys2Proof.Machine Sys2Proof.Safety

/-- Settles O16: the jump ends at `addrOf nnn`, which has the value of `nnn`. -/
theorem jumpSetsPcToTheTarget : Obligations.JumpSetsPcToTheTarget :=
  fun nnn s => ⟨_, rfl, addrOf_toNat nnn, onlyChanges_jumpTo s _⟩

/-- Settles O20: the sum `indexedTarget` of a 12-bit and an 8-bit value does not wrap. -/
theorem indexedJumpAddsV0Unreduced : Obligations.IndexedJumpAddsV0Unreduced :=
  fun nnn s => ⟨_, rfl, indexedTarget_toNat nnn (s.getV 0), onlyChanges_jumpTo s _⟩

/-- Settles O21: both rows fix the group only, and both instructions end in a skip on the two bytes. -/
theorem skipsOnImmediateCompareAllEightBits : Obligations.SkipsOnImmediateCompareAllEightBits :=
  ⟨encodedAs_seImm, encodedAs_sneImm, fun _ _ s =>
    ⟨⟨_, rfl, s.skipIf_beq_pc _ _, onlyChanges_skipIf s _⟩, ⟨_, rfl, s.skipIf_bne_pc _ _, onlyChanges_skipIf s _⟩⟩⟩

/-- Settles O22: both instructions end in a skip on the two registers' bytes, and with x = y these are one byte. -/
theorem skipsOnRegisterCompareBothWays : Obligations.SkipsOnRegisterCompareBothWays := by
  refine fun _ _ s => ⟨⟨_, rfl, s.skipIf_beq_pc _ _, onlyChanges_skipIf s _⟩,
    ⟨_, rfl, s.skipIf_bne_pc _ _, onlyChanges_skipIf s _⟩, ⟨_, rfl, ?_⟩, ⟨_, rfl, ?_⟩⟩
  · rw [State.skipIf_beq_pc, if_pos rfl]
  · rw [State.skipIf_bne_pc, if_neg (not_not_intro rfl)]

end Sys2Proof.Proofs
end

section
/-! SUPPORT. The stack discipline (spec/40_flow.md R111, R112): between a call and its return, instructions that keep the
occupied entries keep the return address too. -/

namespace Sys2Proof.Proofs

open Sys2Proof.Machine Sys2Proof.Safety

/-- Settles O17: the call finds a free entry (`exec_call_of_free`). -/
theorem callPushesTheReturnAddressAndJumps : Obligations.CallPushesTheReturnAddressAndJumps := by
  intro nnn s h
  refine ⟨_, exec_call_of_free (Nat.lt_succ_of_le h), addrOf_toNat nnn, rfl, fun j => ?_, ?_⟩
  · simp only [Fin.getElem_fin, Vector.getElem_set, eq_comm]
  · simp [onlyChanges_iff, State.getV]

/-- Settles O18: the return finds entry j on top (`exec_ret_of_sp_eq_succ`). -/
theorem returnPopsTheLastReturnAddress : Obligations.ReturnPopsTheLastReturnAddress := by
  intro s j h
  refine ⟨_, exec_ret_of_sp_eq_succ j.isLt h, rfl, rfl, ?_⟩
  simp [onlyChanges_iff, State.getV]

end Sys2Proof.Proofs

namespace Sys2Proof.Safety

open Sys2Proof.Machine

variable {s t : State}

/-! ### Sequences of instructions -/

theorem execAll_cons_of_next {i : Instr} (h : exec i s = .next t) (rest : List Instr) :
    execAll (i :: rest) s = execAll rest t := by
  rw [execAll, h]

theorem execAll_append_of_next {is : List Instr} (h : execAll is s = .next t) (rest : List Instr) :
    execAll (is ++ rest) s = execAll rest t := by
  induction is generalizing s with
  | nil =>
    cases h
    rfl
  | cons i is ih =>
    obtain ⟨u, hu, -⟩ := exec_effect i s
    rw [execAll_cons_of_next hu] at h
    rw [List.cons_append, execAll_cons_of_next hu, ih h]

/-! ### Calls with their returns -/

/-- From `s` to `t` PC and free stack entries may change: SP and the occupied entries, which hold the return addresses of the
callers, are those of `s`. -/
structure KeepsCallers (s t : State) : Prop where
  frame : OnlyChanges [.pc, .stack] s t
  occupied : ∀ j : Fin 16, j.val < s.sp.val → t.stack[j] = s.stack[j]

theorem KeepsCallers.refl (s : State) : KeepsCallers s s := ⟨.refl _ s, fun _ _ => rfl⟩

theorem KeepsCallers.sp_eq (h : KeepsCallers s t) : t.sp = s.sp := h.frame .sp (by decide)

/-- A call, instructions that keep the callers, and a return come back to the address after the call: the call makes its own
return address one that the instructions keep. -/
theorem execAll_call_append_ret {nnn : BitVec 12} {body : List Instr} (hfree : s.sp.val < 16)
    (hbody : ∀ u : State, u.sp.val = s.sp.val + 1 → ∃ w, execAll body u = .next w ∧ KeepsCallers u w) :
    ∃ t, execAll (.call nnn :: body ++ [.ret]) s = .next t ∧ t.pc = s.pc + 2 ∧ KeepsCallers s t := by
  obtain ⟨top, htop⟩ : ∃ j : Fin 16, j.val = s.sp.val := ⟨⟨s.sp.val, hfree⟩, rfl⟩
  obtain ⟨u, hcall, -, husp, hustack, huframe⟩ :=
    Proofs.callPushesTheReturnAddressAndJumps nnn s (Nat.le_of_lt_succ hfree)
  obtain ⟨w, hrun, hkeep⟩ := hbody u husp
  have hwsp : w.sp.val = top.val + 1 := by rw [hkeep.sp_eq, husp, htop]
  obtain ⟨t, hret, htpc, htsp, htframe⟩ := Proofs.returnPopsTheLastReturnAddress w top hwsp
  have htstack : t.stack = w.stack := htframe .stack (by decide)
  refine ⟨t, ?_, ?_, ?_, fun j hj => ?_⟩
  · rw [List.cons_append, execAll_cons_of_next hcall, execAll_append_of_next hrun, execAll_cons_of_next hret, execAll]
  · rw [htpc, hkeep.occupied top (by omega), hustack top, if_pos htop]
  · have hall : OnlyChanges [.sp, .pc, .stack] s t :=
      ((huframe.mono (by decide)).trans (hkeep.frame.mono (by decide))).trans (htframe.mono (by decide))
    exact hall.of_restored (Fin.ext (htsp.trans htop))
  · rw [htstack, hkeep.occupied j (by omega), hustack j, if_neg (Nat.ne_of_lt hj)]

/-- Calls nested in one another, with their returns, come back to the address after the outermost call. -/
theorem execAll_calls_append_rets (targets : List (BitVec 12)) (s : State) (h : s.sp.val + targets.length ≤ 16) :
    ∃ t, execAll (targets.map Instr.call ++ List.replicate targets.length Instr.ret) s = .next t ∧
      t.pc = (if targets = [] then s.pc else s.pc + 2) ∧ KeepsCallers s t := by
  induction targets generalizing s with
  | nil => exact ⟨s, rfl, rfl, .refl s⟩
  | cons nnn rest ih =>
    rw [List.length_cons] at h
    have hnested : (nnn :: rest).map Instr.call ++ List.replicate (nnn :: rest).length Instr.ret =
        .call nnn :: (rest.map Instr.call ++ List.replicate rest.length Instr.ret) ++ [.ret] := by
      simp [List.replicate_succ']
    rw [hnested, if_neg (List.cons_ne_nil nnn rest)]
    refine execAll_call_append_ret (by omega) fun u hu => ?_
    obtain ⟨w, hrun, -, hkeep⟩ := ih u (by omega)
    exact ⟨w, hrun, hkeep⟩

end Sys2Proof.Safety

namespace Sys2Proof.Proofs

open Sys2Proof.Machine Sys2Proof.Safety

/-- Settles O23: each call with its return encloses the calls and returns of the remaining targets
(`execAll_calls_append_rets`); where it leaves an empty stack, one more return finds it empty. -/
theorem callsThenReturnsRestoreTheCaller : Obligations.CallsThenReturnsRestoreTheCaller := by
  intro targets s hroom
  obtain ⟨t, hexec, hpc, hkeep⟩ := execAll_calls_append_rets targets s hroom
  exact ⟨t, hexec, hpc, hkeep.sp_eq, hkeep.occupied, hkeep.frame,
    fun hempty => exec_ret_of_empty (by rw [hkeep.sp_eq, hempty])⟩

end Sys2Proof.Proofs
end

section
/-! SUPPORT. Instructions that write general registers only (spec/41_load_alu.md R130, R131): one result, or a result and a
flag; and the values of the flags. -/

namespace Sys2Proof.Machine

variable {x : Reg}

/-- The flag is written last, so VF holds it also when x = F (R131). -/
theorem State.getV_setResultAndFlag_vf (s : State) (x : Reg) (result flag : Byte) :
    (s.setResultAndFlag x result flag).getV vf = flag := by
  rw [State.setResultAndFlag_eq, State.getV_setV_same]

theorem State.getV_setResultAndFlag_result (s : State) (result flag : Byte) (h : x ≠ vf) :
    (s.setResultAndFlag x result flag).getV x = result := by
  rw [State.setResultAndFlag_eq, State.getV_setV_of_ne _ _ _ _ h, State.getV_setV_same]

theorem State.getV_setResultAndFlag_of_ne (s : State) (result flag : Byte) {r : Reg} (hx : r ≠ x) (hvf : r ≠ vf) :
    (s.setResultAndFlag x result flag).getV r = s.getV r := by
  rw [State.setResultAndFlag_eq, State.getV_setV_of_ne _ _ _ _ hvf, State.getV_setV_of_ne _ _ _ _ hx]

/-! ### Flags and results as numbers -/

theorem flagByte_toNat (c : Bool) : (flagByte c).toNat = if c then 1 else 0 := by
  cases c <;> rfl

theorem carryFlag_toNat (a b : Byte) : (carryFlag a b).toNat = if a.toNat + b.toNat > 255 then 1 else 0 := by
  simp only [carryFlag, flagByte_toNat, decide_eq_true_eq]

theorem greaterFlag_toNat (a b : Byte) : (greaterFlag a b).toNat = if a.toNat > b.toNat then 1 else 0 := by
  simp only [greaterFlag_eq, flagByte_toNat, decide_eq_true_eq]

theorem flagByte_getLsbD_toNat (a : Byte) (k : Nat) : (flagByte (a.getLsbD k)).toNat = a.toNat / 2 ^ k % 2 := by
  rw [flagByte_toNat, ← BitVec.testBit_toNat, Nat.testBit_eq_decide_div_mod_eq]
  rcases Nat.mod_two_eq_zero_or_one (a.toNat / 2 ^ k) with h | h <;> simp [h]

theorem lsbFlag_toNat (a : Byte) : (lsbFlag a).toNat = a.toNat % 2 := by
  rw [lsbFlag, flagByte_getLsbD_toNat, Nat.pow_zero, Nat.div_one]

theorem msbFlag_toNat (a : Byte) : (msbFlag a).toNat = a.toNat / 128 := by
  have := a.isLt
  rw [msbFlag, flagByte_getLsbD_toNat]
  omega

/-- A difference of bytes wraps modulo 256 (R130). -/
theorem byte_sub_toNat (a b : Byte) : (a - b).toNat = (a.toNat + 256 - b.toNat) % 256 := by
  have := b.isLt
  rw [BitVec.toNat_sub]
  omega

/-- SHIFT_USES_VY = false: the y field has no effect (R140, R142). -/
theorem State.shiftOperand_eq (s : State) (x y : Reg) : s.shiftOperand x y = s.getV x := rfl

end Sys2Proof.Machine

namespace Sys2Proof.Safety

open Sys2Proof.Machine

variable {s : State} {i : Instr} {x : Reg} {result flag : Byte} {n m : Nat}

theorem writesOnlyV_setV (s : State) (x : Reg) (b : Byte) : WritesOnlyV [x] s (s.setV x b).advance := by
  refine ⟨fun r hr => ?_, rfl, ?_⟩
  · exact State.getV_setV_of_ne s x r b (List.ne_of_not_mem_cons hr)
  · simp [onlyChanges_iff]

theorem writesOnlyV_setResultAndFlag (s : State) (x : Reg) (result flag : Byte) :
    WritesOnlyV [x, vf] s (s.setResultAndFlag x result flag).advance := by
  refine ⟨fun r hr => ?_, rfl, ?_⟩
  · obtain ⟨hx, hvf⟩ : r ≠ x ∧ r ≠ vf := by simpa using hr
    exact s.getV_setResultAndFlag_of_ne result flag hx hvf
  · simp [onlyChanges_iff, State.setResultAndFlag_eq]

/-- What an instruction does that ends with `result` in V[x]. -/
theorem exec_of_setV (h : exec i s = .next (s.setV x result).advance) :
    ∃ t, exec i s = .next t ∧ t.getV x = result ∧ WritesOnlyV [x] s t :=
  ⟨_, h, s.getV_setV_same x result, writesOnlyV_setV s x result⟩

/-- What an instruction does that ends with a result of value `n` in V[x] and then a flag of value `m` in VF (R131). -/
theorem exec_of_setResultAndFlag (h : exec i s = .next (s.setResultAndFlag x result flag).advance)
    (hresult : result.toNat = n) (hflag : flag.toNat = m) :
    ∃ t, exec i s = .next t ∧ WritesOnlyV [x, vf] s t ∧ (x ≠ vf → (t.getV x).toNat = n) ∧ (t.getV vf).toNat = m := by
  refine ⟨_, h, writesOnlyV_setResultAndFlag s x result flag, fun hx => ?_, ?_⟩
  · rw [State.getV_advance, State.getV_setResultAndFlag_result _ _ _ hx, hresult]
  · rw [State.getV_advance, State.getV_setResultAndFlag_vf, hflag]

end Sys2Proof.Safety
end

section
/-! SUPPORT. Load, arithmetic, logic, shift and random instructions (spec/41_load_alu.md R132 to R143). -/

namespace Sys2Proof.Proofs

open Sys2Proof.Machine Sys2Proof.Safety

/-- Settles O28: the result is the sum of the bytes, which wraps, and the flag is its carry. -/
theorem addSetsCarryInVf : Obligations.AddSetsCarryInVf :=
  fun _ _ _ => exec_of_setResultAndFlag rfl (BitVec.toNat_add _ _) (carryFlag_toNat _ _)

/-- Settles O29: the result is the wrapped difference V[x] - V[y], and equal operands leave no flag (`greaterFlag_eq`). -/
theorem subtractSetsStrictGreaterInVf : Obligations.SubtractSetsStrictGreaterInVf :=
  fun _ _ _ => exec_of_setResultAndFlag rfl (byte_sub_toNat _ _) (greaterFlag_toNat _ _)

/-- Settles O30: as for 8xy5, with V[y] as the minuend. -/
theorem reverseSubtractSetsStrictGreaterInVf : Obligations.ReverseSubtractSetsStrictGreaterInVf :=
  fun _ _ _ => exec_of_setResultAndFlag rfl (byte_sub_toNat _ _) (greaterFlag_toNat _ _)

/-- Settles O31: both shifts act on V[x] (`State.shiftOperand_eq`); the flag is its lowest or its highest bit. -/
theorem shiftsMoveOneBitIntoVf : Obligations.ShiftsMoveOneBitIntoVf := by
  intro x y s
  rw [← s.shiftOperand_eq x y]
  refine ⟨exec_of_setResultAndFlag rfl ?_ (lsbFlag_toNat _), exec_of_setResultAndFlag rfl ?_ (msbFlag_toNat _)⟩
  · rw [BitVec.toNat_ushiftRight, Nat.shiftRight_one]
  · rw [BitVec.toNat_shiftLeft, Nat.shiftLeft_eq, Nat.pow_one]

/-- Settles O24: the row fixes the group only, and the instruction ends with kk in V[x]. -/
theorem loadImmediateWritesOneRegister : Obligations.LoadImmediateWritesOneRegister :=
  ⟨encodedAs_ldImm, fun _ _ _ => exec_of_setV rfl⟩

/-- 7xkk from any state: the sum wraps at 8 bits (R133). -/
theorem exec_addImm (x : Reg) (kk : Byte) (s : State) :
    ∃ t, exec (.addImm x kk) s = .next t ∧ (t.getV x).toNat = ((s.getV x).toNat + kk.toNat) % 256 ∧
      WritesOnlyV [x] s t := by
  obtain ⟨t, ht, hval, hframe⟩ := exec_of_setV (i := .addImm x kk) (s := s) rfl
  exact ⟨t, ht, by rw [hval, BitVec.toNat_add], hframe⟩

/-- Settles O25 (`exec_addImm`): the sum wraps at 8 bits; after a 6xkk its first summand is the byte loaded. -/
theorem addImmediateWrapsAndTouchesNoFlag : Obligations.AddImmediateWrapsAndTouchesNoFlag := by
  refine ⟨encodedAs_addImm, fun x kk s => ⟨exec_addImm x kk s, fun kk1 => ?_⟩⟩
  obtain ⟨u, hload, hu, -⟩ := loadImmediateWritesOneRegister.2 x kk1 s
  obtain ⟨t, hsum, ht, -⟩ := exec_addImm x kk u
  exact ⟨t, by rw [execAll_cons_of_next hload, execAll_cons_of_next hsum, execAll], by rw [ht, hu]⟩

/-- Settles O26: the instruction ends with the byte of V[y] in V[x]. -/
theorem copyRegisterWritesOneRegister : Obligations.CopyRegisterWritesOneRegister :=
  fun _ _ _ => exec_of_setV rfl

/-- Settles O27: each of the three ends with a bitwise combination of the two bytes in V[x] and writes no flag. -/
theorem logicOperationsActBitwiseAndLeaveVf : Obligations.LogicOperationsActBitwiseAndLeaveVf := by
  refine fun x y s => ⟨⟨_, rfl, writesOnlyV_setV s x _, fun b _ => ?_⟩, ⟨_, rfl, writesOnlyV_setV s x _, fun b _ => ?_⟩,
    ⟨_, rfl, writesOnlyV_setV s x _, fun b _ => ?_⟩⟩
  · rw [State.getV_advance, State.getV_setV_same, BitVec.getLsbD_or]
  · rw [State.getV_advance, State.getV_setV_same, BitVec.getLsbD_and]
  · rw [State.getV_advance, State.getV_setV_same, BitVec.getLsbD_xor]

/-- Settles O32: the masked byte is written to V[x] of the state whose random byte is used up. -/
theorem randomByteIsMaskedByTheImmediate : Obligations.RandomByteIsMaskedByTheImmediate := by
  refine fun x kk s => ⟨_, rfl, rfl, rfl, fun b _ => ?_, fun r hr => ?_, ?_⟩
  · rw [State.getV_advance, State.getV_setV_same, State.rand, BitVec.getLsbD_and]
  · rw [State.getV_advance, State.getV_setV_of_ne _ _ _ _ hr, State.getV_useRand]
  · simp [onlyChanges_iff]

end Sys2Proof.Proofs
end

section
/-! SUPPORT. The index register and the operands that must be 0 to 15 (spec/42_index_memory.md R160 to R162,
spec/44_keypad_timers.md R203, R204). -/

namespace Sys2Proof.Machine

variable {s : State} {x : Reg} {b : Byte}

theorem indexSum_toNat (i : Word) (b : Byte) : (indexSum i b).toNat = (i.toNat + b.toNat) % 65536 := by
  have := b.isLt
  simp only [indexSum, BitVec.toNat_add, BitVec.toNat_setWidth]
  omega

theorem fontAddress_toNat (d : Fin 16) : (fontAddress d).toNat = 5 * d.val := by
  have := d.isLt
  simp only [fontAddress, Params.fontBase, Params.fontStride, BitVec.toNat_ofNat]
  omega

theorem digitOperand_fault_of_gt (h : b.toNat > 15) : digitOperand .fault b = none := by
  rcases digitOperand_fault_cases b with ⟨hd, -⟩ | ⟨hlt, -⟩
  · exact hd
  · omega

theorem digitOperand_fault_of_lt (h : b.toNat < 16) : digitOperand .fault b = some ⟨b.toNat, h⟩ := by
  rcases digitOperand_fault_cases b with ⟨-, hgt⟩ | ⟨_, hd⟩
  · omega
  · exact hd

theorem exec_skp_of_gt (h : (s.getV x).toNat > 15) : exec (.skp x) s = .next (s.raise (operandFault (s.getV x))) := by
  rw [exec, execSkp, Params.keyIndexOor, digitOperand_fault_of_gt h]

theorem exec_sknp_of_gt (h : (s.getV x).toNat > 15) : exec (.sknp x) s = .next (s.raise (operandFault (s.getV x))) := by
  rw [exec, execSknp, Params.keyIndexOor, digitOperand_fault_of_gt h]

theorem exec_ldF_of_gt (h : (s.getV x).toNat > 15) : exec (.ldF x) s = .next (s.raise (operandFault (s.getV x))) := by
  rw [exec, execLdF, Params.fontDigitOor, digitOperand_fault_of_gt h]

theorem exec_ldF_of_lt (h : (s.getV x).toNat < 16) :
    exec (.ldF x) s = .next (s.setI (fontAddress ⟨(s.getV x).toNat, h⟩)).advance := by
  rw [exec, execLdF, Params.fontDigitOor, digitOperand_fault_of_lt h]

end Sys2Proof.Machine

namespace Sys2Proof.Safety

open Sys2Proof.Machine

theorem onlyChanges_setI (s : State) (w : Word) : OnlyChanges [.i, .pc] s (s.setI w).advance := by
  simp [onlyChanges_iff]

end Sys2Proof.Safety

namespace Sys2Proof.Proofs

open Sys2Proof.Machine Sys2Proof.Safety

/-- Settles O34: I ends as `addrOf nnn`, which has the value of `nnn`. -/
theorem loadIndexZeroExtends : Obligations.LoadIndexZeroExtends :=
  ⟨encodedAs_ldI, fun nnn s => ⟨_, rfl, addrOf_toNat nnn, addrOf_toNat_le nnn, rfl, onlyChanges_setI s _⟩⟩

/-- Settles O35: I ends as the 16-bit sum `indexSum`. -/
theorem addIndexWrapsAtSixteenBits : Obligations.AddIndexWrapsAtSixteenBits :=
  fun _ s => ⟨_, rfl, indexSum_toNat _ _, rfl, onlyChanges_setI s _⟩

/-- Settles O36: a digit of at most 15 is taken as it is, and five times it needs no 16-bit wrap. -/
theorem fontAddressIsFiveTimesTheDigit : Obligations.FontAddressIsFiveTimesTheDigit :=
  fun _ s h => ⟨_, exec_ldF_of_lt (Nat.lt_succ_of_le h), fontAddress_toNat _, rfl, onlyChanges_setI s _⟩

/-- Settles O50: each of the three refuses such an operand, and only raises the fault. -/
theorem operandAboveFifteenFaults : Obligations.OperandAboveFifteenFaults :=
  fun _ _ h => ⟨exec_skp_of_gt h, exec_sknp_of_gt h, exec_ldF_of_gt h⟩

end Sys2Proof.Proofs
end

section
/-! SUPPORT. Fx33, Fx55 and Fx65 with the whole run inside memory (spec/42_index_memory.md R164 to R167). -/

namespace Sys2Proof.Machine

variable {s : State} {x : Reg}

/-- Fx33 inside memory stores the three digits at I. -/
theorem exec_ldB_of_inside (h : s.i.toNat ≤ 0xFFD) :
    exec (.ldB x) s = .next { s with mem := s.mem.writeRun s.i.toNat (bcdDigits (s.getV x)) }.advance := by
  have hrun : runFault s.i 3 = none := runFault_eq_none_iff.2 (.inr (by omega))
  rw [exec, execLdB, hrun]

/-- Fx65 inside memory loads V[0] to V[x] from I and leaves I (LOADSTORE_INCREMENTS_I = false). -/
theorem exec_ldVxMem_of_inside (h : s.i.toNat + x.val ≤ 0xFFF) :
    exec (.ldVxMem x) s = .next (s.setRegsUpTo x (s.mem.readRun s.i.toNat (x.val + 1))).advance := by
  have hrun : runFault s.i (x.val + 1) = none := runFault_eq_none_iff.2 (.inr (by omega))
  rw [exec, execLdVxMem, hrun]
  rfl

/-- No digit of a byte is cut off: each is below 256. -/
theorem map_toNat_bcdDigits (b : Byte) :
    (bcdDigits b).map BitVec.toNat = [b.toNat / 100, b.toNat / 10 % 10, b.toNat % 10] := by
  have := b.isLt
  simp only [bcdDigits, List.map_cons, List.map_nil, BitVec.toNat_ofNat, List.cons.injEq, and_true]
  omega

/-- Fx33 inside memory leaves the digits at I, I + 1 and I + 2 (R164). -/
theorem read_writeRun_bcdDigits (hm : s.mem.wf = true) (h : s.i.toNat ≤ 0xFFD) (b : Byte) (k : Nat) (hk : k < 3) :
    ((s.mem.writeRun s.i.toNat (bcdDigits b)).read (s.i.toNat + k)).toNat =
      [b.toNat / 100, b.toNat / 10 % 10, b.toNat % 10][k] := by
  have hrun : s.i.toNat + (bcdDigits b).length ≤ Config.memSize := Nat.add_le_add_right h 3
  have hlen : k < (bcdDigits b).length := hk
  rw [Memory.read_writeRun_inside _ _ _ k hlen hrun hm]
  simp only [← map_toNat_bcdDigits, List.getElem_map]

theorem State.getV_setRegsUpTo_readRun (s : State) (m : Memory) (a : Nat) {r : Reg} (hr : r ≤ x) :
    (s.setRegsUpTo x (m.readRun a (x.val + 1))).getV r = m.read (a + r.val) := by
  have hlen : r.val < (m.readRun a (x.val + 1)).length := by
    rw [Memory.length_readRun]
    exact Nat.lt_succ_of_le hr
  rw [State.getV_setRegsUpTo, if_pos hr, List.getD_eq_getElem _ _ hlen, Memory.getElem_readRun]

theorem State.getV_setRegsUpTo_of_gt (s : State) (bytes : List Byte) {r : Reg} (hr : x < r) :
    (s.setRegsUpTo x bytes).getV r = s.getV r := by
  rw [State.getV_setRegsUpTo, if_neg (not_le_of_gt hr)]

end Sys2Proof.Machine

namespace Sys2Proof.Safety

open Sys2Proof.Machine

theorem onlyChanges_mem (s : State) (m : Memory) : OnlyChanges [.mem, .pc] s { s with mem := m }.advance := by
  simp [onlyChanges_iff, State.getV]

end Sys2Proof.Safety

namespace Sys2Proof.Proofs

open Sys2Proof.Machine Sys2Proof.Safety

/-- Settles O37: the three digits are a run of bytes stored at I. -/
theorem bcdStoresThreeDigits : Obligations.BcdStoresThreeDigits := by
  intro x s hm hI
  have hdigit := read_writeRun_bcdDigits hm hI (s.getV x)
  have hrun : s.i.toNat + (bcdDigits (s.getV x)).length ≤ Config.memSize := Nat.add_le_add_right hI 3
  exact ⟨_, exec_ldB_of_inside hI, hdigit 0 (by decide), hdigit 1 (by decide), hdigit 2 (by decide),
    fun a ha => Memory.read_writeRun_outside _ _ _ a ha, Memory.wf_writeRun _ _ _ hrun hm, rfl, onlyChanges_mem s _⟩

/-- Settles O38: V[0] to V[x] are a run of bytes stored at I. -/
theorem storeRegistersWritesTheInclusiveRange : Obligations.StoreRegistersWritesTheInclusiveRange := by
  intro x s hm hI
  have hlen := s.length_regsUpTo x
  have hrun : s.i.toNat + (s.regsUpTo x).length ≤ Config.memSize := by
    rw [hlen]
    exact Nat.succ_le_succ hI
  exact ⟨_, exec_ldMemVx_of_inside hI, fun k hk => read_writeRun_regsUpTo hm hI hk,
    fun a ha => Memory.read_writeRun_outside _ _ _ a (by omega), Memory.wf_writeRun _ _ _ hrun hm, rfl,
    onlyChanges_mem s _⟩

/-- Settles O39: the run read at I replaces V[0] to V[x] and no other register. -/
theorem loadRegistersReadsTheInclusiveRange : Obligations.LoadRegistersReadsTheInclusiveRange := by
  intro x s hI
  refine ⟨_, exec_ldVxMem_of_inside hI, fun k hk => ?_, fun k hk => ?_, rfl, ?_⟩
  · rw [State.getV_advance, State.getV_setRegsUpTo_readRun _ _ _ hk]
  · rw [State.getV_advance, State.getV_setRegsUpTo_of_gt _ _ hk]
  · simp [onlyChanges_iff]

end Sys2Proof.Proofs
end

section
/-! SUPPORT. The sprite compositor (spec/43_display.md R181, R183, R184): the cells on which a sprite 1 falls, and that a draw,
bit by bit, flips exactly these and reports whether one of them was lit. -/

namespace Sys2Proof.Machine

theorem xor_eq_true_iff {a b : Bool} : (a ^^ b) = true ↔ (a = true ↔ ¬ b = true) := by
  cases a <;> cases b <;> decide

/-! ### Accumulators of a draw -/

/-- From one accumulator of a draw to a later one, exactly the cells with `hit` are flipped, and a collision is one had before
or a lit cell that is flipped. -/
structure Flips (hit : Fin 32 → Fin 64 → Prop) (acc acc' : Framebuffer × Bool) : Prop where
  cell_iff : ∀ row col, cell acc'.1 row col = true ↔ (cell acc.1 row col = true ↔ ¬ hit row col)
  collision_iff : acc'.2 = true ↔ acc.2 = true ∨ ∃ row col, hit row col ∧ cell acc.1 row col = true

variable {hit hit' : Fin 32 → Fin 64 → Prop} {acc acc' acc'' : Framebuffer × Bool}

theorem Flips.congr (h : Flips hit acc acc') (hiff : ∀ row col, hit row col ↔ hit' row col) : Flips hit' acc acc' where
  cell_iff row col := by rw [h.cell_iff, hiff]
  collision_iff := by simp only [h.collision_iff, hiff]

theorem Flips.refl (acc : Framebuffer × Bool) : Flips (fun _ _ => False) acc acc where
  cell_iff := by simp
  collision_iff := by simp

/-- No cell is flipped twice, so a cell the second step flips was lit before it exactly when it was lit before both. -/
theorem Flips.trans (h : Flips hit acc acc') (h' : Flips hit' acc' acc'')
    (hdisj : ∀ row col, hit row col → ¬ hit' row col) : Flips (fun row col => hit row col ∨ hit' row col) acc acc'' where
  cell_iff row col := by
    have := hdisj row col
    rw [h'.cell_iff, h.cell_iff]
    tauto
  collision_iff := by
    have hlit : ∀ row col, (hit' row col ∧ cell acc'.1 row col = true) ↔ (hit' row col ∧ cell acc.1 row col = true) := by
      intro row col
      have := hdisj row col
      rw [h.cell_iff]
      tauto
    simp only [h'.collision_iff, h.collision_iff, hlit, or_and_right, exists_or, or_assoc]

theorem Flips.cell_eq_xor {pixel : Fin 32 → Fin 64 → Bool} (h : Flips (fun row col => pixel row col = true) acc acc')
    (row : Fin 32) (col : Fin 64) : cell acc'.1 row col = (cell acc.1 row col ^^ pixel row col) := by
  rw [Bool.eq_iff_iff, h.cell_iff, xor_eq_true_iff]

theorem Flips.collision_iff_lit (h : Flips hit acc acc') (hstart : acc.2 = false) :
    acc'.2 = true ↔ ∃ row col, hit row col ∧ cell acc.1 row col = true := by
  simp only [h.collision_iff, hstart, Bool.false_eq_true, false_or]

/-- A draw that starts with no collision ends with one exactly when some cell goes from 1 to 0 (R183). -/
theorem Flips.collision_iff_erased (h : Flips hit acc acc') (hstart : acc.2 = false) :
    acc'.2 = true ↔ ∃ row col, cell acc.1 row col = true ∧ cell acc'.1 row col = false := by
  have herased : ∀ row col, (hit row col ∧ cell acc.1 row col = true) ↔
      (cell acc.1 row col = true ∧ cell acc'.1 row col = false) := by
    intro row col
    rw [← Bool.not_eq_true (cell acc'.1 row col), h.cell_iff]
    tauto
  simp only [h.collision_iff_lit hstart, herased]

/-! ### The cells of a sprite -/

/-- A 1 among the first `k` bits of a sprite byte, drawn into `row` from column `x0` on, falls on this cell. -/
def HitsInRow (row : Fin 32) (byte : Byte) (x0 k : Nat) (row' : Fin 32) (col : Fin 64) : Prop :=
  row' = row ∧ ∃ b < k, col = colOfSprite x0 b ∧ spriteBit byte b = true

/-- A 1 of a sprite drawn at `x0`, `y0` falls on this cell. -/
def Hits (sprite : List Byte) (x0 y0 : Nat) (row : Fin 32) (col : Fin 64) : Prop :=
  ∃ (r : Nat) (hr : r < sprite.length), HitsInRow (rowOfSprite y0 r) sprite[r] x0 8 row col

theorem rowOfSprite_eq_iff {y0 r : Nat} {row : Fin 32} (hr : r < 32) :
    row = rowOfSprite y0 r ↔ (row.val + (32 - y0 % 32)) % 32 = r := by
  have := row.isLt
  simp only [rowOfSprite, Fin.ext_iff, Fin.val_ofNat]
  omega

theorem colOfSprite_eq_iff {x0 b : Nat} {col : Fin 64} (hb : b < 64) :
    col = colOfSprite x0 b ↔ (col.val + (64 - x0 % 64)) % 64 = b := by
  have := col.isLt
  simp only [colOfSprite, Fin.ext_iff, Fin.val_ofNat]
  omega

theorem HitsInRow.succ_iff {row row' : Fin 32} {col : Fin 64} {byte : Byte} {x0 k : Nat} :
    HitsInRow row byte x0 (k + 1) row' col ↔
      HitsInRow row byte x0 k row' col ∨ (row' = row ∧ col = colOfSprite x0 k) ∧ spriteBit byte k = true := by
  simp only [HitsInRow, Nat.exists_lt_succ_right, and_or_left, and_assoc]

theorem Hits.append_singleton_iff {sprite : List Byte} {byte : Byte} {x0 y0 : Nat} {row : Fin 32} {col : Fin 64} :
    Hits (sprite ++ [byte]) x0 y0 row col ↔
      Hits sprite x0 y0 row col ∨ HitsInRow (rowOfSprite y0 sprite.length) byte x0 8 row col := by
  constructor
  · rintro ⟨r, hr, h⟩
    rcases Nat.lt_or_ge r sprite.length with hlt | hge
    · exact .inl ⟨r, hlt, by rwa [List.getElem_append_left hlt] at h⟩
    · obtain rfl : r = sprite.length := by
        rw [List.length_append, List.length_singleton] at hr
        omega
      exact .inr (by simpa using h)
  · rintro (⟨r, hr, h⟩ | h)
    · exact ⟨r, List.length_append ▸ Nat.lt_add_right _ hr, by rwa [List.getElem_append_left hr]⟩
    · exact ⟨sprite.length, by simp, by simpa using h⟩

/-! ### The sequential draw -/

theorem flips_drawCell (acc : Framebuffer × Bool) (row : Fin 32) (col : Fin 64) (bit : Bool) :
    Flips (fun row' col' => (row' = row ∧ col' = col) ∧ bit = true) acc (drawCell acc row col bit) := by
  obtain ⟨hcell, hcollision⟩ := drawCell_cases acc row col bit
  refine ⟨fun row' col' => ?_, ?_⟩
  · rw [hcell, xor_eq_true_iff, Bool.and_eq_true, decide_eq_true_eq]
  · rw [hcollision]
    simp

/-- The first `k` bits of a row fall on different columns, so they flip one cell each. -/
theorem flips_foldl_drawCell (acc : Framebuffer × Bool) (x0 : Nat) (row : Fin 32) (byte : Byte) {k : Nat} (hk : k ≤ 64) :
    Flips (HitsInRow row byte x0 k) acc
      ((List.range k).foldl (fun acc b => drawCell acc row (colOfSprite x0 b) (spriteBit byte b)) acc) := by
  induction k with
  | zero => exact (Flips.refl acc).congr (by simp [HitsInRow])
  | succ k ih =>
    rw [List.range_succ, List.foldl_append]
    refine ((ih (by omega)).trans (flips_drawCell _ row _ _) ?_).congr fun _ _ => HitsInRow.succ_iff.symm
    rintro row' col ⟨-, b, hb, hcol, -⟩ ⟨⟨-, hcol'⟩, -⟩
    rw [colOfSprite_eq_iff (by omega)] at hcol hcol'
    omega

theorem flips_drawRow (acc : Framebuffer × Bool) (x0 : Nat) (row : Fin 32) (byte : Byte) :
    Flips (HitsInRow row byte x0 8) acc (drawRow acc x0 row byte) :=
  flips_foldl_drawCell acc x0 row byte (by decide)

theorem drawRows_append_singleton (acc : Framebuffer × Bool) (x0 y0 r : Nat) (sprite : List Byte) (byte : Byte) :
    drawRows acc x0 y0 r (sprite ++ [byte]) =
      drawRow (drawRows acc x0 y0 r sprite) x0 (rowOfSprite y0 (r + sprite.length)) byte := by
  induction sprite generalizing acc r with
  | nil => rfl
  | cons first rest ih =>
    rw [List.cons_append, drawRows, ih, drawRows, List.length_cons, Nat.add_assoc, Nat.add_comm 1]

/-- At most 32 sprite rows fall on different rows, so a draw flips each cell on which a sprite 1 falls once. -/
theorem flips_draw (fb : Framebuffer) (sprite : List Byte) (x0 y0 : Nat) (hlen : sprite.length ≤ 32) :
    Flips (Hits sprite x0 y0) (fb, false) (draw fb sprite x0 y0) := by
  induction sprite using List.reverseRecOn with
  | nil => exact (Flips.refl _).congr (by simp [Hits])
  | append_singleton sprite byte ih =>
    rw [List.length_append, List.length_singleton] at hlen
    rw [draw, drawRows_append_singleton, Nat.zero_add]
    refine ((ih (by omega)).trans (flips_drawRow _ x0 _ byte) ?_).congr
      fun _ _ => Hits.append_singleton_iff.symm
    rintro row col ⟨r, hr, hrow, -⟩ ⟨hrow', -⟩
    rw [rowOfSprite_eq_iff (by omega)] at hrow hrow'
    omega

end Sys2Proof.Machine
end

section
/-! SUPPORT. Dxyn and 00E0 (spec/43_display.md R180, R182 to R185). -/

namespace Sys2Proof.Machine

theorem flagByte_toNat_le_one (c : Bool) : (flagByte c).toNat ≤ 1 := by
  cases c <;> decide

theorem flagByte_toNat_eq_one_iff {c : Bool} : (flagByte c).toNat = 1 ↔ c = true := by
  cases c <;> decide

end Sys2Proof.Machine

namespace Sys2Proof.Safety

open Sys2Proof.Machine

variable {s t : State} {x y : Reg} {n : Fin 16}

/-- The cell-wise reading of a sprite names the cells on which a sprite 1 falls (R184). -/
theorem spritePixel_iff_hits {row : Fin 32} {col : Fin 64} :
    spritePixel s x y n row col = true ↔
      Hits (s.mem.readRun s.i.toNat n.val) (s.getV x).toNat (s.getV y).toNat row col := by
  have hn := n.isLt
  simp only [spritePixel, Bool.and_eq_true, decide_eq_true_eq]
  constructor
  · rintro ⟨⟨hr, hc⟩, hbit⟩
    refine ⟨_, by rwa [Memory.length_readRun], (rowOfSprite_eq_iff (by omega)).2 rfl, _, hc,
      (colOfSprite_eq_iff (by omega)).2 rfl, ?_⟩
    rw [spriteBit, Memory.getElem_readRun, hbit]
  · rintro ⟨r, hr, hrow, b, hb, hcol, hbit⟩
    have hrn : r < n.val := by rwa [Memory.length_readRun] at hr
    rw [rowOfSprite_eq_iff (by omega)] at hrow
    rw [colOfSprite_eq_iff (by omega)] at hcol
    rw [spriteBit, Memory.getElem_readRun] at hbit
    rw [hrow, hcol]
    exact ⟨⟨hrn, hb⟩, hbit⟩

/-- What `DRW Vx, Vy, n` draws depends on memory, I and the two coordinate registers only. -/
theorem spritePixel_congr (hmem : ∀ a, t.mem.read a = s.mem.read a) (hi : t.i = s.i) (hx : t.getV x = s.getV x)
    (hy : t.getV y = s.getV y) : spritePixel t x y n = spritePixel s x y n := by
  funext row col
  simp only [spritePixel, hmem, hi, hx, hy]

/-- Dxyn inside memory flips the cells of its sprite and delivers the collision in VF (R182 to R184). -/
theorem exec_drw_flips (h : n.val = 0 ∨ s.i.toNat + (n.val - 1) ≤ 0xFFF) :
    ∃ drawn : Framebuffer × Bool,
      exec (.drw x y n) s = .next ({ s with fb := drawn.1 }.setV vf (flagByte drawn.2)).advance ∧
      Flips (fun row col => spritePixel s x y n row col = true) (s.fb, false) drawn := by
  have hrun : runFault s.i n.val = none := runFault_eq_none_iff.2 (by omega)
  have hlen : (s.mem.readRun s.i.toNat n.val).length ≤ 32 := by
    rw [Memory.length_readRun]
    omega
  exact ⟨_, by rw [exec, execDrw, hrun], (flips_draw _ _ _ _ hlen).congr fun _ _ => spritePixel_iff_hits.symm⟩

/-- A Dxyn that ends at another PC took no fault, so its sprite lies inside memory. -/
theorem inside_of_exec_drw (h : exec (.drw x y n) s = .next t) (hpc : t.pc ≠ s.pc) :
    n.val = 0 ∨ s.i.toNat + (n.val - 1) ≤ 0xFFF := by
  rcases runFault_cases s.i n.val with ⟨-, hin⟩ | ⟨hrun, -, -⟩
  · omega
  · rw [exec_drw_of_runFault hrun] at h
    cases h
    exact absurd rfl hpc

theorem onlyChanges_drawn (s : State) (fb : Framebuffer) (flag : Byte) :
    OnlyChanges [.fb, .v, .pc] s (State.setV { s with fb := fb } vf flag).advance := by
  simp [onlyChanges_iff]

theorem onlyChanges_fb (s : State) (fb : Framebuffer) : OnlyChanges [.fb, .pc] s { s with fb := fb }.advance := by
  simp [onlyChanges_iff, State.getV]

end Sys2Proof.Safety

namespace Sys2Proof.Proofs

open Sys2Proof.Machine Sys2Proof.Safety

/-- Settles O45: the row fixes the whole word, and every cell of the cleared grid is 0. -/
theorem clearDisplayClearsEveryCell : Obligations.ClearDisplayClearsEveryCell :=
  ⟨encodedAs_cls, fun s => ⟨_, rfl, cell_clearGrid, rfl, onlyChanges_fb s _⟩⟩

/-- Settles O46: the cells the sequential draw flips (`flips_draw`) are those the cell-wise reading names. -/
theorem drawEqualsTheParallelCompositor : Obligations.DrawEqualsTheParallelCompositor := by
  intro x y n s hI
  obtain ⟨drawn, hexec, hflips⟩ := exec_drw_flips (x := x) (y := y) hI
  refine ⟨_, hexec, fun row col => hflips.cell_eq_xor row col, ?_, ?_, fun r hr => ?_, rfl, onlyChanges_drawn s _ _⟩
  · rw [State.getV_advance, State.getV_setV_same]
    exact flagByte_toNat_le_one _
  · rw [State.getV_advance, State.getV_setV_same, flagByte_toNat_eq_one_iff, hflips.collision_iff_lit rfl]
  · rw [State.getV_advance, State.getV_setV_of_ne _ _ _ _ hr]
    rfl

/-- Settles O47: a draw flips each cell on which a sprite 1 falls once, so those it finds lit are those it erases. -/
theorem collisionIsTheAggregateOfErasedCells : Obligations.CollisionIsTheAggregateOfErasedCells := by
  refine ⟨fun fb sprite x0 y0 hlen => ?_, fun x y n s t hexec hpc => ?_⟩
  · have hflips := flips_draw fb sprite x0 y0 (by omega)
    refine ⟨(hflips.collision_iff_lit rfl).trans ⟨?_, ?_⟩, hflips.collision_iff_erased rfl⟩
    · rintro ⟨row, col, ⟨r, hr, rfl, b, hb, rfl, hbit⟩, hlit⟩
      exact ⟨r, hr, b, hb, hbit, hlit⟩
    · rintro ⟨r, hr, b, hb, hbit, hlit⟩
      exact ⟨_, _, ⟨r, hr, rfl, b, hb, rfl, hbit⟩, hlit⟩
  · obtain ⟨drawn, hdraw, hflips⟩ := exec_drw_flips (x := x) (y := y) (inside_of_exec_drw hexec hpc)
    cases hexec.symm.trans hdraw
    rw [State.getV_advance, State.getV_setV_same, flagByte_toNat_eq_one_iff]
    exact ⟨flagByte_toNat_le_one _, hflips.collision_iff_erased rfl⟩

/-- Settles O48 (`drawEqualsTheParallelCompositor`, twice): the first draw leaves the sprite and its coordinates as they were, so
the second flips the same cells, and finds lit those that were unlit before the first. -/
theorem drawingTwiceRestoresTheDisplay : Obligations.DrawingTwiceRestoresTheDisplay := by
  intro x y n s hx hy hI
  obtain ⟨t, hfirst, hcells, -, -, hregs, -, hframe⟩ := drawEqualsTheParallelCompositor x y n s hI
  have hi : t.i = s.i := hframe .i (by decide)
  obtain ⟨u, hsecond, hcells', -, hflag, -, -, -⟩ := drawEqualsTheParallelCompositor x y n t (by rwa [hi])
  rw [spritePixel_congr (hframe .mem (by decide)) hi (hregs x hx) (hregs y hy)] at hcells' hflag
  refine ⟨u, by rw [execAll_cons_of_next hfirst, execAll_cons_of_next hsecond, execAll], fun row col => ?_, ?_⟩
  · rw [hcells', hcells, Bool.xor_assoc, Bool.xor_self, Bool.xor_false]
  · rw [hflag]
    refine exists_congr fun row => exists_congr fun col => and_congr_right fun hpixel => ?_
    rw [hcells, hpixel, Bool.xor_true, Bool.not_eq_true']

end Sys2Proof.Proofs
end

section
/-! SUPPORT. The keypad (spec/44_keypad_timers.md R201 to R205), the step that executes an instruction, and the blocked step
(spec/60_exceptions.md R220, R221). -/

namespace Sys2Proof.Machine

variable {s t : State} {x : Reg} {k : Fin 16} {b : Byte} {i : Instr}

/-! ### Reading a key after an update -/

@[simp] theorem State.isPressed_setKeyState_same (s : State) (k : Fin 16) (pressed : Bool) :
    (s.setKeyState k pressed).isPressed k = pressed := by
  simp [State.isPressed]

theorem State.isPressed_setKeyState_of_ne (s : State) (pressed : Bool) {j : Fin 16} (h : j ≠ k) :
    (s.setKeyState k pressed).isPressed j = s.isPressed j := by
  simp [State.isPressed, Fin.val_ne_of_ne h.symm]

@[simp] theorem State.isPressed_setV (s : State) (x : Reg) (b : Byte) (j : Fin 16) :
    (s.setV x b).isPressed j = s.isPressed j := rfl

@[simp] theorem State.isPressed_advance (s : State) (j : Fin 16) : s.advance.isPressed j = s.isPressed j := rfl

/-! ### The keypad wait -/

theorem State.awaitKey_eq_none_iff : s.awaitKey = none ↔ ∀ j : Fin 16, s.isPressed j = false := by
  rcases s.awaitKey_cases with ⟨hnone, hkeys⟩ | ⟨j, hsome, hj, -⟩
  · exact iff_of_true hnone hkeys
  · exact iff_of_false (by simp [hsome]) fun hkeys => by simp [hkeys j] at hj

/-- A pressed key with no pressed key below it is the one the wait reports. -/
theorem State.awaitKey_of_lowest (hk : s.isPressed k = true) (hlow : ∀ j : Fin 16, j < k → s.isPressed j = false) :
    s.awaitKey = some k := by
  rcases s.awaitKey_cases with ⟨-, hkeys⟩ | ⟨j, hsome, hj, hlow'⟩
  · simp [hkeys k] at hk
  · have hjk : ¬ j < k := fun hlt => by simp [hlow j hlt] at hj
    have hkj : ¬ k < j := fun hlt => by simp [hlow' k hlt] at hk
    rw [hsome, le_antisymm (not_lt.1 hkj) (not_lt.1 hjk)]

theorem exec_ldVxK_of_none (h : s.awaitKey = none) : exec (.ldVxK x) s = .next s := by
  rw [exec, execLdVxK, h, State.blocked_eq]

theorem exec_ldVxK_of_some (h : s.awaitKey = some k) :
    exec (.ldVxK x) s = .next ((s.setV x (BitVec.ofNat 8 k.val)).setKeyState k false).advance := by
  rw [exec, execLdVxK, h]

/-! ### The key skips -/

theorem digitOperand_fault_of_toNat_eq (h : b.toNat = k.val) : digitOperand .fault b = some k := by
  rw [digitOperand_fault_of_lt (h ▸ k.isLt)]
  exact congrArg some (Fin.ext h)

theorem exec_skp_of_toNat_eq (h : (s.getV x).toNat = k.val) : exec (.skp x) s = .next (s.skipIf (s.isPressed k)) := by
  rw [exec, execSkp, Params.keyIndexOor, digitOperand_fault_of_toNat_eq h]

theorem exec_sknp_of_toNat_eq (h : (s.getV x).toNat = k.val) : exec (.sknp x) s = .next (s.skipIf (!s.isPressed k)) := by
  rw [exec, execSknp, Params.keyIndexOor, digitOperand_fault_of_toNat_eq h]

/-! ### The step that executes, and the blocked step -/

/-- A step executes the instruction at PC exactly when the latch is clear and the fetch and the decode succeed (R230). -/
theorem beginStep_eq_run_iff : beginStep s = .run i ↔
    s.fault = none ∧ s.pc.toNat % 2 = 0 ∧ s.pc.toNat ≤ 0xFFE ∧
      decode (s.mem.read s.pc.toNat ++ s.mem.read (s.pc.toNat + 1)) = .instr i := by
  constructor
  · intro h
    rcases beginStep_cases s with ⟨_, _, e⟩ | ⟨_, _, e⟩ | ⟨_, _, _, _, _, e⟩ | ⟨op, i', hs, hpc, hfetch, hd, e⟩ <;>
      cases h.symm.trans e
    cases (fetch_of_fetchable hpc).symm.trans hfetch
    obtain ⟨heven, hle⟩ := (fetchable_iff s.pc).1 hpc
    exact ⟨hs, heven, hle, hd⟩
  · rintro ⟨hs, heven, hle, hd⟩
    simp [beginStep, hs, fetch_of_fetchable ((fetchable_iff s.pc).2 ⟨heven, hle⟩), hd]

theorem step_of_beginStep_run (h : beginStep s = .run i) : step s = exec i s := by
  rw [step, h]

theorem step_of_isBlocked (h : s.isBlocked = true) : step s = .next s := by
  obtain ⟨⟨x, hrun⟩, hnone⟩ := (isBlocked_iff s).1 h
  rw [step_of_beginStep_run hrun, exec_ldVxK_of_none hnone]

/-- A step reports Blocked when it began at a wait with no key pressed and latched no fault. -/
theorem stepReport_eq_blocked_iff : stepReport s t = .blocked ↔ t.fault = none ∧ s.isBlocked = true := by
  cases hfault : t.fault with
  | some f => simp [stepReport, hfault]
  | none => simp [stepReport, hfault]

end Sys2Proof.Machine

namespace Sys2Proof.Safety

open Sys2Proof.Machine

theorem onlyChanges_setKeyState (s : State) (k : Fin 16) (pressed : Bool) :
    OnlyChanges [.key] s (s.setKeyState k pressed) := by
  simp [onlyChanges_iff]

theorem onlyChanges_dt (s : State) (b : Byte) : OnlyChanges [.dt, .pc] s { s with dt := b }.advance := by
  simp [onlyChanges_iff, State.getV]

theorem onlyChanges_st (s : State) (b : Byte) : OnlyChanges [.st, .pc] s { s with st := b }.advance := by
  simp [onlyChanges_iff, State.getV]

end Sys2Proof.Safety

namespace Sys2Proof.Proofs

open Sys2Proof.Machine Sys2Proof.Safety

/-- Settles O15: `State.isBlocked` says of a state that its step is a wait with no key pressed; such a step changes nothing
(`step_of_isBlocked`), and the report reads it off the state before the step (`stepReport_eq_blocked_iff`). -/
theorem blockedStepsAreExactlyWaitsWithNoKey : Obligations.BlockedStepsAreExactlyWaitsWithNoKey := by
  refine ⟨fun s x hs heven hle hd hkeys => ?_, fun s t hstep hreport => ?_⟩
  · have hblocked : s.isBlocked = true :=
      (isBlocked_iff s).2 ⟨⟨x, beginStep_eq_run_iff.2 ⟨hs, heven, hle, hd⟩⟩, State.awaitKey_eq_none_iff.2 hkeys⟩
    exact ⟨step_of_isBlocked hblocked, stepReport_eq_blocked_iff.2 ⟨hs, hblocked⟩⟩
  · obtain ⟨-, hblocked⟩ := stepReport_eq_blocked_iff.1 hreport
    obtain ⟨⟨x, hrun⟩, hnone⟩ := (isBlocked_iff s).1 hblocked
    obtain ⟨hs, heven, hle, hd⟩ := beginStep_eq_run_iff.1 hrun
    cases hstep.symm.trans (step_of_isBlocked hblocked)
    exact ⟨rfl, hs, heven, hle, ⟨x, hd⟩, State.awaitKey_eq_none_iff.1 hnone⟩

/-- Settles O51: the wait reports the lowest pressed key (`State.awaitKey_of_lowest`), and a key index fits in a byte. -/
theorem waitForKeyTakesTheLowestPressedKey : Obligations.WaitForKeyTakesTheLowestPressedKey := by
  intro x k s hk hlow
  refine ⟨_, exec_ldVxK_of_some (State.awaitKey_of_lowest hk hlow), ?_, by simp, fun j hj => ?_, fun r hr => ?_, rfl, ?_⟩
  · rw [State.getV_advance, State.getV_setKeyState, State.getV_setV_same, BitVec.toNat_ofNat]
    omega
  · rw [State.isPressed_advance, State.isPressed_setKeyState_of_ne _ _ hj, State.isPressed_setV]
  · rw [State.getV_advance, State.getV_setKeyState, State.getV_setV_of_ne _ _ _ _ hr]
  · simp [onlyChanges_iff]

/-- Settles O49: an index of at most 15 is taken as it is, and both instructions end in a skip on that key's state. -/
theorem keySkipsReadTheKeyState : Obligations.KeySkipsReadTheKeyState := by
  refine fun x k s hx => ⟨⟨_, exec_skp_of_toNat_eq hx, rfl, onlyChanges_skipIf s _⟩,
    ⟨_, exec_sknp_of_toNat_eq hx, ?_, onlyChanges_skipIf s _⟩⟩
  simp only [State.skipIf_pc, Bool.not_eq_true']

/-- Settles O52: Fx07 ends with the byte of DT in V[x], the other two with the byte of V[x] in one timer. -/
theorem timerMovesCopyOneByte : Obligations.TimerMovesCopyOneByte :=
  fun _ s => ⟨exec_of_setV rfl, ⟨_, rfl, rfl, rfl, onlyChanges_dt s _⟩, ⟨_, rfl, rfl, rfl, onlyChanges_st s _⟩⟩

/-- Settles O54: the event is one `State.setKeyState`, whatever the latch holds. -/
theorem setKeyChangesOneKey : Obligations.SetKeyChangesOneKey :=
  fun k pressed s => ⟨s.isPressed_setKeyState_same k pressed, fun _ hj => s.isPressed_setKeyState_of_ne pressed hj,
    onlyChanges_setKeyState s k pressed⟩

end Sys2Proof.Proofs
end

section
/-! SUPPORT. The faults a step can latch (spec/60_exceptions.md R222 to R229): the step that latches one has raised it, and the
table of R223 bounds its info. -/

namespace Sys2Proof.Machine

open Sys2Proof.Safety

variable {s t : State} {i : Instr} {f : FaultRecord}

/-- Of the faults that can be latched only RomTooLarge has an info of more than 16 bits (R223). -/
theorem info_le_of_latchOk (h : LatchOk f) (hkind : f.kind ≠ .romTooLarge) : f.info ≤ 0xFFFF := by
  obtain ⟨kind, info⟩ := f
  cases kind with
  | outOfBounds => exact h.1
  | stackOverflow => exact h.2.trans (by decide)
  | stackUnderflow => exact h.2.trans (by decide)
  | unimplementedOpcode => exact h.1
  | romTooLarge => exact absurd rfl hkind
  | operandOutOfRange => exact h.2.trans (by decide)

theorem ExecFault.kind_ne_romTooLarge (h : ExecFault s f) : f.kind ≠ .romTooLarge := by
  cases h <;> nofun

theorem kind_ne_romTooLarge_of_beginStep (h : beginStep s = .faulted f) : f.kind ≠ .romTooLarge := by
  rcases fault_of_beginStep h with ⟨-, rfl⟩ | ⟨_, -, rfl⟩ <;> nofun

/-- An instruction leaves the latch, or raises a fault and does nothing else (R222). -/
theorem ExecEffect.keeps_latch_or_raises (h : ExecEffect s i t) :
    t.fault = s.fault ∨ ∃ f, ExecFault s f ∧ t = s.raise f := by
  cases h with
  | raise i hf => exact .inr ⟨_, hf, rfl⟩
  | _ => exact .inl rfl

/-- A step that latches a fault has raised it, at the fetch, at the decode or in the instruction (R222), and `LoadRom` alone
raises RomTooLarge (R228). -/
theorem step_raises (hs : s.fault = none) (h : step s = .next t) (hf : t.fault = some f) :
    t = s.raise f ∧ LatchOk f ∧ f.kind ≠ .romTooLarge := by
  rcases step_cases s with ⟨g, hg, -⟩ | ⟨g, -, hbegin, hstep⟩ | ⟨i, -, hbegin, hstep⟩
  · cases hs.symm.trans hg
  · cases h.symm.trans hstep
    cases hf
    exact ⟨rfl, latchOk_of_beginStep hbegin, kind_ne_romTooLarge_of_beginStep hbegin⟩
  · rcases (effect_of_exec (hstep.symm.trans h)).keeps_latch_or_raises with hkeep | ⟨g, hraised, rfl⟩
    · cases hf.symm.trans (hkeep.trans hs)
    · cases hf
      exact ⟨rfl, latchOk_of_execFault (fetchable_of_beginStep_run hbegin) hraised, hraised.kind_ne_romTooLarge⟩

theorem stepReport_of_fault (h : t.fault = some f) : stepReport s t = .fault f := by
  rw [stepReport, h]

/-- A step of a halted core (R231). -/
theorem step_of_fault (h : s.fault = some f) : step s = .next s := by
  rcases step_cases s with ⟨_, -, hstep⟩ | ⟨_, hs, -⟩ | ⟨_, hs, -⟩
  · exact hstep
  · cases h.symm.trans hs
  · cases h.symm.trans hs

theorem step_answers (s : State) : ∃ t : State, step s = .next t := by
  rcases step_cases s with ⟨_, -, hstep⟩ | ⟨_, -, -, hstep⟩ | ⟨i, -, -, hstep⟩
  · exact ⟨_, hstep⟩
  · exact ⟨_, hstep⟩
  · obtain ⟨t, ht, -⟩ := exec_effect i s
    exact ⟨t, hstep.trans ht⟩

end Sys2Proof.Machine

namespace Sys2Proof.Proofs

open Sys2Proof.Machine

/-- Settles O6: the front half of such a step answers the decoded instruction (`beginStep_eq_run_iff`). -/
theorem stepRunsTheDecodedInstruction : Obligations.StepRunsTheDecodedInstruction :=
  fun _ _ hs heven hle hd => step_of_beginStep_run (beginStep_eq_run_iff.2 ⟨hs, heven, hle, hd⟩)

/-- Settles O8: the latch is checked first, and the report reads it. -/
theorem haltedCoreChangesNothingAndReportsTheLatch : Obligations.HaltedCoreChangesNothingAndReportsTheLatch :=
  fun _ _ h => ⟨step_of_fault h, stepReport_of_fault h⟩

/-- Settles O9: each of the 34 instructions answers a next state (`exec_effect`), and so does each way of a step. -/
theorem everyStepAndInstructionAnswersANextState : Obligations.EveryStepAndInstructionAnswersANextState :=
  ⟨step_answers, fun i s => (exec_effect i s).imp fun _ h => h.1⟩

/-- Settles O10: a step that latches a fault has raised it and done nothing else (`step_raises`). -/
theorem faultingStepChangesOnlyTheLatch : Obligations.FaultingStepChangesOnlyTheLatch := by
  intro s t f hs h hf
  obtain ⟨hraise, hlatch, hkind⟩ := step_raises hs h hf
  exact ⟨hraise, stepReport_of_fault hf, hkind, info_le_of_latchOk hlatch hkind⟩

end Sys2Proof.Proofs
end

section
/-! SUPPORT. Ticks (spec/60_exceptions.md R235), the end of a run (R247), and what an event gives the host back (R242). -/

namespace Sys2Proof.Machine

variable {s t : State} {pc : Word}

/-! ### Ticks -/

theorem tickTimer_toNat (b : Byte) : (tickTimer b).toNat = b.toNat - 1 := by
  by_cases hb : b = 0
  · simp [tickTimer, hb]
  · rw [tickTimer, if_neg hb]
    bv_omega

theorem tickTimer_iterate_toNat (b : Byte) (n : Nat) : (tickTimer^[n] b).toNat = b.toNat - n := by
  induction n with
  | zero => rfl
  | succ n ih => rw [Function.iterate_succ_apply', tickTimer_toNat, ih, Nat.sub_sub]

/-- The two timers are counted down each by itself. -/
theorem hostTick_iterate (s : State) (n : Nat) :
    hostTick^[n] s = { s with dt := tickTimer^[n] s.dt, st := tickTimer^[n] s.st } := by
  induction n with
  | zero => rfl
  | succ n ih => simp only [Function.iterate_succ_apply', ih, hostTick]

/-! ### The jump to itself -/

theorem addrOf_setWidth_of_le (h : pc.toNat ≤ 0xFFF) : addrOf (pc.setWidth 12) = pc := by
  apply BitVec.eq_of_toNat_eq
  rw [addrOf_toNat, BitVec.toNat_setWidth]
  omega

/-- Below 0x1000 the word `0x1000 ||| pc` is that of the jump to `pc` (R86, R247). -/
theorem encode_jp_setWidth (h : pc.toNat ≤ 0xFFF) : encode (.jp (pc.setWidth 12)) = 0x1000 ||| pc := by
  apply BitVec.eq_of_toNat_eq
  have hmod : pc.toNat % 2 ^ 12 = pc.toNat := Nat.mod_eq_of_lt (by omega)
  rw [encode, encNnn, BitVec.toNat_append, BitVec.toNat_setWidth, hmod, BitVec.toNat_or]
  rfl

/-! ### Reports -/

theorem reportedFault_step (s t : State) : reportedFault (.step (stepReport s t)) = t.fault := by
  cases hf : t.fault with
  | some f => rw [stepReport_of_fault hf, reportedFault]
  | none => cases hb : s.isBlocked <;> simp [stepReport, hf, hb, reportedFault]

theorem reportedFault_load (bytes : List Byte) (hs : s.fault = none) :
    reportedFault (.load (loadReport bytes)) = (hostLoadRom bytes s).fault := by
  rcases romFault_cases bytes with ⟨-, -, hreport, hload⟩ | ⟨-, -, hreport, hload⟩
  · rw [hreport, hload, reportedFault, hs]
  · rw [hreport, hload, reportedFault, State.raise_fault]

end Sys2Proof.Machine

namespace Sys2Proof.Safety

open Sys2Proof.Machine

theorem onlyChanges_hostTick (s : State) : OnlyChanges [.dt, .st] s (hostTick s) := by
  simp [onlyChanges_iff, hostTick, State.getV]

/-- An ended state is at a jump to its own address. -/
theorem Ended.beginStep_eq {s : State} (h : Ended s) : beginStep s = .run (.jp (s.pc.setWidth 12)) := by
  obtain ⟨hs, heven, hle, hword⟩ := h
  refine beginStep_eq_run_iff.2 ⟨hs, heven, hle, ?_⟩
  rw [← decode_encode, encode_jp_setWidth (by omega), ← hword, wordOfBytes]

end Sys2Proof.Safety

namespace Sys2Proof.Proofs

open Sys2Proof.Machine Sys2Proof.Safety

/-- Settles O53: one timer in one tick (`tickTimer_toNat`), and by induction in n ticks; the latch is not read. -/
theorem tickCountsBothTimersDown : Obligations.TickCountsBothTimersDown :=
  fun s => ⟨tickTimer_toNat s.dt, tickTimer_toNat s.st, onlyChanges_hostTick s, fun n => by
    rw [hostTick_iterate]
    exact ⟨tickTimer_iterate_toNat s.dt n, tickTimer_iterate_toNat s.st n⟩⟩

/-- Settles O56: the step of an ended state is a jump to PC, which is all that a jump sets. -/
theorem endedStateIsAFixedPointOfStep : Obligations.EndedStateIsAFixedPointOfStep := by
  intro s h
  have hbegin := h.beginStep_eq
  obtain ⟨-, -, hle, -⟩ := h
  rw [step_of_beginStep_run hbegin, exec, execJp, addrOf_setWidth_of_le (by omega)]
  rfl

/-- Settles O58, event by event: a step's report reads the latch after it, the report of a load is the fault it raised, and
the other three events give nothing back. -/
theorem reportedFaultIsTheLatchedFault : Obligations.ReportedFaultIsTheLatchedFault := by
  intro e s t h
  cases e with
  | step => exact ⟨fun _ => reportedFault_step s t, nofun⟩
  | reset =>
    cases h
    exact ⟨fun _ => rfl, nofun⟩
  | loadRom bytes =>
    cases h
    refine ⟨fun hs => ?_, nofun⟩
    have hclear : s.fault = none := by simpa using hs
    exact reportedFault_load bytes hclear
  | tick | setKey =>
    cases h
    refine ⟨fun hs => ?_, fun _ _ _ => ⟨rfl, rfl⟩⟩
    have hclear : s.fault = none := by simpa using hs
    exact hclear.symm

end Sys2Proof.Proofs
end

section
/-! SUPPORT. The event `LoadRom` (spec/70_reset_and_hazards.md R264, R265): the bytes it copies and what it leaves unchanged. -/

namespace Sys2Proof.Safety

open Sys2Proof.Machine

theorem onlyChanges_replaceMem (s : State) (m : Memory) : OnlyChanges [.mem] s { s with mem := m } := by
  simp [onlyChanges_iff, State.getV]

end Sys2Proof.Safety

namespace Sys2Proof.Proofs

open Sys2Proof.Machine Sys2Proof.Safety

/-- Settles O55, by the two answers of the check of `LoadRom` (`romFault_cases`): a load is a run of writes that ends inside
the 4096 bytes, since 0x200 + 3584 = 4096, and a refused image raises its fault on the state as it was. -/
theorem loadRomCopiesAllOrNothing : Obligations.LoadRomCopiesAllOrNothing := by
  intro bytes s hm
  rcases romFault_cases bytes with ⟨hlen, -, hreport, hload⟩ | ⟨hlen, -, hreport, hload⟩
  · refine ⟨fun _ => ?_, fun hlong => absurd hlong (Nat.not_lt.2 hlen)⟩
    have hfits : 0x200 + bytes.length ≤ Config.memSize := Nat.add_le_add_left hlen 0x200
    rw [hload s]
    exact ⟨fun k hk => Memory.read_writeRun_inside s.mem 0x200 bytes k hk hfits hm,
      fun a ha => Memory.read_writeRun_outside s.mem 0x200 bytes a ha,
      Memory.wf_writeRun s.mem 0x200 bytes hfits hm, onlyChanges_replaceMem s _, hreport⟩
  · exact ⟨fun hshort => absurd hshort (Nat.not_le.2 hlen), fun _ => ⟨hload s, hreport⟩⟩

end Sys2Proof.Proofs
end
